-- ==== Sys2Proof/Word.lean ====
section
/-! DEFINITION. The plain types every other file uses: bus words, bytes, offsets, residues and slot numbers
(00_scope.md R9, R10; 30_encoding.md R101). -/

namespace Sys2Proof

/-- A 32-bit bus word: register values and command words (R9, R10, R100). -/
abbrev Word := BitVec 32

/-- One byte lane of the register space (R78). -/
abbrev Byte := BitVec 8

/-- A byte offset from BASE, 0x0000 to 0xFFFF (R70). -/
abbrev Offset := BitVec 16

/-- A residue: an integer in [0, 29) (00_scope.md glossary, R2, R9). -/
abbrev Residue := Fin 29

/-- A slot number, 0..3 (R8: NSLOT = 4; R101: a 2-bit unsigned field). -/
abbrev SlotNo := Fin 4

end Sys2Proof
end

