-- ==== Sys2Proof/Config.lean ====
section
/-! DEFINITION. The implementation parameters of 00_scope.md R8. NMAX and CMAX are arguments of the model: State holds
them (they are the constant behind the ID register, R30, R31) and every operation reads them from there. BASE is a
free value. LAT is represented by the schedule (State.inbox), since no rule reads its value (R228). -/

namespace Sys2Proof

/-- The parameters NMAX and CMAX of R8, readable by the Host in ID (R31). -/
structure Params where
  /-- NMAX: the maximum number of rows of a slot. -/
  nmax : Nat
  /-- CMAX: the maximum number of columns of a slot. -/
  cmax : Nat
  deriving DecidableEq, Repr

namespace Config

/-- R8, column "value for this hardware": NMAX = 8 and CMAX = 32. -/
def reference : Params := ⟨8, 32⟩

/-- The interface version in ID[31:24] (R1, R31). -/
def version : Byte := 0x01

/-- BASE is OPEN (R8): the platform's choice of a 64 KiB aligned bus address. This is the number of that 64 KiB region;
it has no value in the model (log entry 3). -/
opaque baseRegion : Nat

/-- BASE, 64 KiB aligned (R8). -/
def base : Nat := 0x10000 * baseRegion

/-- The bus address at which the platform sees a byte offset of the block (R70). -/
def busAddress (off : Offset) : Nat := base + off.toNat

end Config

/-- The constraints of R8: 1 ≤ NMAX ≤ 255, NMAX ≤ CMAX ≤ 255 and NMAX·CMAX ≤ 1024. -/
abbrev Params.Legal (p : Params) : Prop :=
  1 ≤ p.nmax ∧ p.nmax ≤ 255 ∧ p.nmax ≤ p.cmax ∧ p.cmax ≤ 255 ∧ p.nmax * p.cmax ≤ 1024

end Sys2Proof
end

