-- ==== Sys2Proof/Syntax.lean ====
section
/-! DEFINITION. The commands (00_scope.md R6: the block's unit of instruction is a command word), one constructor per row of
spec/opcode_table.json, and the fields of a command word (30_encoding.md R101). -/

namespace Sys2Proof

/-- A command of the opcode map (R103). The slot operands are in assembler order, destination first (R108). -/
inductive Instr where
  /-- MRED: RES <- normalize(OPA) (R133). -/
  | mred
  /-- MADD: RES <- (OPA + OPB) mod 29 (R134). -/
  | madd
  /-- MSUB: RES <- (OPA − OPB) mod 29 (R135). -/
  | msub
  /-- MMUL: RES <- (OPA · OPB) mod 29 (R136). -/
  | mmul
  /-- MINV: RES <- INV29[normalize(OPA)] (R137). -/
  | minv
  /-- MATINV Md, Ma: slot[SD] <- inverse of slot[SA], or the sentinel (R150). -/
  | matinv (sd sa : SlotNo)
  /-- MATMUL Md, Ma, Mb: slot[SD] <- slot[SA] · slot[SB] mod 29 (R170). -/
  | matmul (sd sa sb : SlotNo)
  deriving DecidableEq, Repr

/-- The fields of a command word (R101). -/
structure CmdFields where
  /-- OPC, bits 7:0. -/
  opc : BitVec 8
  /-- SA, bits 9:8: the first source slot. -/
  sa : BitVec 2
  /-- SB, bits 11:10: the second source slot. -/
  sb : BitVec 2
  /-- SD, bits 13:12: the destination slot. -/
  sd : BitVec 2
  /-- RSV, bits 31:14: reserved, must be 0. -/
  rsv : BitVec 18
  deriving DecidableEq, Repr

end Sys2Proof
end

