-- ==== Sys2Proof/WellFormed.lean ====
section
/-! DEFINITION. Which fields make a legal command word: the four conditions of 30_encoding.md R105, one check each, stated over
the fields of R101 and independently of the decoder. The operands of an `Instr` are slot numbers by their type, so every
`Instr` is well-formed; `Instr.WellFormed` (Decode.lean) says so through these checks. -/

namespace Sys2Proof.CmdFields

/-- R105 (a): RSV is 0. -/
def rsvClear (f : CmdFields) : Bool := f.rsv == 0

/-- OPC is a format-S opcode, 0x01 to 0x05 (R102, R103). -/
def isScalar (f : CmdFields) : Bool :=
  f.opc == 0x01 || f.opc == 0x02 || f.opc == 0x03 || f.opc == 0x04 || f.opc == 0x05

/-- R105 (b): OPC is one of 0x01–0x05, 0x10, 0x11. -/
def opcAssigned (f : CmdFields) : Bool := f.isScalar || f.opc == 0x10 || f.opc == 0x11

/-- R105 (c): a format-S word names no slot. -/
def scalarNamesNoSlot (f : CmdFields) : Bool := !f.isScalar || (f.sa == 0 && f.sb == 0 && f.sd == 0)

/-- R105 (d): a MATINV word has SB = 0. -/
def matinvHasNoSb (f : CmdFields) : Bool := !(f.opc == 0x10) || f.sb == 0

/-- A legal command word: none of R105 (a) to (d) holds. -/
def legal (f : CmdFields) : Bool :=
  f.rsvClear && f.opcAssigned && f.scalarNamesNoSlot && f.matinvHasNoSb

end Sys2Proof.CmdFields
end

