-- ==== Sys2Proof/Decode.lean ====
section
/-! DEFINITION. The decoder of 30_encoding.md R107, total on all 2^32 words, with a name for each way a word is illegal (R105);
after it the encoder (R102, R103, R108) and the entry point the host reads. -/

namespace Sys2Proof

/-- Why a command word is illegal (R105), in the order R107 tests. -/
inductive IllegalWord where
  /-- R105 (a): RSV ≠ 0. -/
  | reservedBits
  /-- R105 (b): OPC is not in the opcode map. -/
  | unassignedOpcode
  /-- R105 (c): a scalar command names a slot. -/
  | scalarSlotField
  /-- R105 (d): MATINV with SB ≠ 0. -/
  | matinvSlotB
  deriving DecidableEq, Repr

/-- The fields of a command word v (R101). -/
def fieldsOf (v : Word) : CmdFields where
  opc := v.extractLsb' 0 8
  sa := v.extractLsb' 8 2
  sb := v.extractLsb' 10 2
  sd := v.extractLsb' 12 2
  rsv := v.extractLsb' 14 18

/-- A slot field is the slot's number, unsigned (R101, R104). -/
def slotOf (b : BitVec 2) : SlotNo := Fin.ofNat 4 b.toNat

/-- A format-S word (R102): the command, if no slot field is set (R107). -/
def decodeScalar (f : CmdFields) (i : Instr) : Except IllegalWord Instr :=
  if f.sa ≠ 0 ∨ f.sb ≠ 0 ∨ f.sd ≠ 0 then .error .scalarSlotField else .ok i

/-- R107 on the fields of the word. -/
def decodeFields (f : CmdFields) : Except IllegalWord Instr :=
  if f.rsv ≠ 0 then .error .reservedBits
  else if f.opc = 0x01 then decodeScalar f .mred
  else if f.opc = 0x02 then decodeScalar f .madd
  else if f.opc = 0x03 then decodeScalar f .msub
  else if f.opc = 0x04 then decodeScalar f .mmul
  else if f.opc = 0x05 then decodeScalar f .minv
  else if f.opc = 0x10 then
    if f.sb ≠ 0 then .error .matinvSlotB else .ok (.matinv (slotOf f.sd) (slotOf f.sa))
  else if f.opc = 0x11 then .ok (.matmul (slotOf f.sd) (slotOf f.sa) (slotOf f.sb))
  else .error .unassignedOpcode

/-- decode(v) of R107. -/
def decode (v : Word) : Except IllegalWord Instr := decodeFields (fieldsOf v)

/-- The 2-bit field of a slot number (R101). -/
def slotBits (s : SlotNo) : BitVec 2 := BitVec.ofNat 2 s.val

/-- The fields each command's word has (R102, R103): an unused slot field and RSV are 0. -/
def Instr.fields : Instr → CmdFields
  | .mred => ⟨0x01, 0, 0, 0, 0⟩
  | .madd => ⟨0x02, 0, 0, 0, 0⟩
  | .msub => ⟨0x03, 0, 0, 0, 0⟩
  | .mmul => ⟨0x04, 0, 0, 0, 0⟩
  | .minv => ⟨0x05, 0, 0, 0, 0⟩
  | .matinv sd sa => ⟨0x10, slotBits sa, 0, slotBits sd, 0⟩
  | .matmul sd sa sb => ⟨0x11, slotBits sa, slotBits sb, slotBits sd, 0⟩

/-- The word with the given fields, most significant first (R101). -/
def packFields (f : CmdFields) : Word := f.rsv ++ f.sd ++ f.sb ++ f.sa ++ f.opc

/-- The command word of an instruction (R108). -/
def encode (i : Instr) : Word := packFields i.fields

/-- An instruction is well-formed when its word is legal (R105). -/
def Instr.WellFormed (i : Instr) : Bool := i.fields.legal

/-- The instruction the decoder reads from a word of spec/opcode_table.json's numbering: bit 0 is the least significant bit of
the one 32-bit command word (R10, R100), and every bit above nbits is 0. A number that does not fit the one word is no
command. -/
def decodeTableWord (nbits w : Nat) : Option Instr :=
  if w % 2 ^ nbits < 2 ^ 32 then (decode (BitVec.ofNat 32 (w % 2 ^ nbits))).toOption else none

end Sys2Proof
end

