-- ==== Sys2Proof/Machine/State.lean ====
section
/-! DEFINITION. The state of the block (10_state.md R30), the inputs that are scheduled for it (00_scope.md R5, R7) and the values its
reads have returned (70_reset_and_hazards.md R230), the reasons a step can stop, and the state after reset (R220). -/

namespace Sys2Proof.Machine

/-- The completion codes of 60_exceptions.md R192. Codes 5–15 are reserved and never produced. -/
inductive CompletionCode where
  | ok | illegal | dim | singular | noinv
  deriving DecidableEq, Repr

/-- CTRL (R32): the two bits that exist. Bits 31:2 read as 0 and ignore writes. -/
structure Ctrl where
  /-- CTRL[0], the pivoting policy of the next accepted MATINV (R33). -/
  pivot : Bool
  /-- CTRL[1], the enable of the interrupt output (R34). -/
  irqEn : Bool
  deriving DecidableEq, Repr

/-- STATUS (R35). Bits 7:4 and 31:12 read as 0. -/
structure Status where
  /-- STATUS[0]: a command is pending. -/
  busy : Bool
  /-- STATUS[1]: a command has completed since DONE was last cleared. -/
  done : Bool
  /-- STATUS[2], sticky: some command completed with a code other than OK. -/
  err : Bool
  /-- STATUS[3], sticky: a Host access was blocked because BUSY = 1. -/
  busyacc : Bool
  /-- STATUS[11:8]: the completion code of the most recently completed command. -/
  ecode : CompletionCode
  deriving DecidableEq, Repr

/-- The shape of a slot, DIM[s] (R39). Bits 31:16 read as 0 and ignore writes. -/
structure Dim where
  /-- DIM[s][7:0] = ROWS. -/
  rows : BitVec 8
  /-- DIM[s][15:8] = COLS. -/
  cols : BitVec 8
  deriving DecidableEq, Repr

/-- The storage of the slot windows (R72): byte offset from BASE and the byte that stands there, in one canonical form (strictly
rising offsets, no entry equal to 0, which is what an unlisted offset reads as: R220, R73). An element's residue is the
low byte lane of its window word (R78, log entry 1). -/
abbrev Memory := List Host.Cell

/-- One Host bus access (R5, R12): its size in bytes and its byte offset from BASE. Only size 4 at a multiple of 4 is defined
(R77). -/
inductive Access where
  /-- MemRead(off, size). -/
  | read (size : Nat) (off : Offset)
  /-- MemWrite(off, size, v). -/
  | write (size : Nat) (off : Offset) (v : Word)
  /-- One poll of a `WAIT` loop (R110): the read of STATUS, MemRead(0x008, 4), told from other reads because the number of polls is
  not part of a run's result (R230; log entry 15). -/
  | poll
  deriving DecidableEq, Repr

/-- What happens next (R5, R7, R220): the Host makes an access, the Engine gets a turn, or the reset input is asserted. -/
inductive Event where
  /-- A Host step. -/
  | host (a : Access)
  /-- The Engine's turn: it completes the pending command, if there is one (R191). -/
  | engine
  /-- The reset input is asserted and released (R220, R221). -/
  | reset
  deriving DecidableEq, Repr

/-- The machine. All fields down to `lpivot` are the list of R30; `inbox`, `reads` and `busyPolls` are the model's own record of the outside
world. -/
@[ext]
structure State where
  /-- NMAX and CMAX, the constant behind the ID register (R31); no step changes it. -/
  params : Params
  /-- CTRL (R32–R34). -/
  ctrl : Ctrl
  /-- STATUS (R35). -/
  status : Status
  /-- CMD: the last accepted command word (R36). -/
  cmd : Word
  /-- OPA (R37). -/
  opa : Word
  /-- OPB (R37). -/
  opb : Word
  /-- RES[4:0] (R38). -/
  res : Residue
  /-- DIM[0..3] (R39–R41). -/
  dim : Vector Dim 4
  /-- slot[s].e[i][j] for every s, i, j (R42–R44). -/
  mem : Memory
  /-- LPIVOT, the hidden latch of CTRL.PIVOT (R45). -/
  lpivot : Bool
  /-- The accesses, Engine turns and resets that are still to happen, next first (log entry 2). -/
  inbox : List Event
  /-- The values the Host's reads have returned, oldest first (R7, R230), but for the polls in `busyPolls`. -/
  reads : List Word
  /-- The polls of `WAIT` loops that found BUSY = 1 and were repeated, oldest first: each with the number of entries `reads` had
  then, which is its place among the Host's reads, and the value it returned (R7, R110; log entry 15). -/
  busyPolls : List (Nat × Word)
  deriving DecidableEq, Repr

/-- Why a step stops with a fault. -/
inductive Fault where
  /-- Raised by a Host access that is not a 32-bit access at a multiple of 4: the block answers with a bus error and changes
  nothing (R77, R205). Safe: the spec itself makes it a fault. -/
  | busError
  deriving DecidableEq, Repr

/-- Why the model has no meaning for a step. -/
inductive Refusal where
  /-- Raised by exec for an instruction whose meaning is not written yet; no instruction of this model is (R205: no refusal is
  needed at the block boundary). Safe: the run stops. -/
  | notModelled (mnemonic : String)
  deriving DecidableEq, Repr

/-- The state after reset (R220), with the reference parameters of R8: every register and slot at the value the spec gives.
Nothing is scheduled and nothing has been read. -/
def State.reset : State where
  params := Config.reference
  ctrl := { pivot := true, irqEn := false }
  status := { busy := false, done := false, err := false, busyacc := false, ecode := .ok }
  cmd := 0
  opa := 0
  opb := 0
  res := 0
  dim := #v[⟨0, 0⟩, ⟨0, 0⟩, ⟨0, 0⟩, ⟨0, 0⟩]
  mem := []
  lpivot := true
  inbox := []
  reads := []
  busyPolls := []

end Sys2Proof.Machine
end

