-- ==== Sys2Proof/Machine/Arith.lean ====
section
/-! DEFINITION. The modular arithmetic primitives (00_scope.md R10, R11; 40_modular_arithmetic.md R130–R132) and the residue
matrices the Engine works on (R12, R13, R45). -/

namespace Sys2Proof.Machine

/-- sint(v): a 32-bit word read as a two's-complement integer (R10). -/
def sint (v : Word) : Int := v.toInt

/-- mod29(a): the unique r in 0..28 with a − r divisible by 29, floor modulo (R11). -/
def mod29 (a : Int) : Residue := ⟨(a % 29).toNat, by omega⟩

/-- trem(a, 29): the truncating remainder, with the sign of a (R11). -/
def trem29 (a : Int) : Int := a.tmod 29

/-- normalize(a) = mod29(a) (R130; 90_conflicts.md C1: a negative multiple of 29 gives 0). -/
def normalize29 (a : Int) : Residue := mod29 a

/-- zext_32 of a residue (R10, R38). -/
def zext32 (r : Residue) : Word := BitVec.ofNat 32 r.val

/-- The byte lane that holds a stored residue (R42, R78). -/
def residueByte (r : Residue) : Byte := BitVec.ofNat 8 r.val

/-- The residue a stored byte stands for; on the values 0..28, the only ones ever stored (R42), it is that number. -/
def byteResidue (b : Byte) : Residue := mod29 b.toNat

/-- add29 (R132), on exact integers. -/
def add29 (x y : Residue) : Residue := mod29 ((x.val : Int) + y.val)

/-- sub29 (R132), on exact integers. -/
def sub29 (x y : Residue) : Residue := mod29 ((x.val : Int) - y.val)

/-- mul29 (R132), on exact integers. -/
def mul29 (x y : Residue) : Residue := mod29 ((x.val : Int) * y.val)

/-- The inverse table of R131: the entries for r = 1, 2, …, 28 in order. -/
def inv29Table : List Residue :=
  [1, 15, 10, 22, 6, 5, 25, 11, 13, 3, 8, 17, 9, 27] ++
  [2, 20, 12, 21, 26, 16, 18, 4, 24, 23, 7, 19, 14, 28]

/-- INV29[r] (R131): `none` for r = 0, which has no entry. -/
def inv29 (r : Residue) : Option Residue := if r = 0 then none else inv29Table[r.val - 1]?

/-- A matrix of residues, row by row (R13). -/
abbrev Mat := List (List Residue)

/-- A[i][j], from 0 (R12). -/
def entry (A : Mat) (i j : Nat) : Residue := (A.getD i []).getD j 0

/-- The m×k matrix whose entry at row i, column j is f i j. -/
def matOf (m k : Nat) (f : Nat → Nat → Residue) : Mat :=
  (List.range m).map fun i => (List.range k).map fun j => f i j

/-- I_n (R12). -/
def identity (n : Nat) : Mat := matOf n n fun i j => if i = j then 1 else 0

end Sys2Proof.Machine
end

