-- ==== Sys2Proof/Machine/Flags.lean ====
section
/-! DEFINITION. The words of the control, status, identification and shape registers, every update of a STATUS bit, and the
interrupt output (10_state.md R31–R35, R39; 60_exceptions.md R190–R192, R199, R200). -/

namespace Sys2Proof.Machine

/-- The 4-bit value of a completion code (R192). -/
def CompletionCode.bits : CompletionCode → BitVec 4
  | .ok => 0
  | .illegal => 1
  | .dim => 2
  | .singular => 3
  | .noinv => 4

/-- The word a read of STATUS returns: {20'b0, ECODE, 4'b0, BUSYACC, ERR, DONE, BUSY} (R35, R75). -/
def Status.toWord (t : Status) : Word :=
  0#20 ++ t.ecode.bits ++ 0#4 ++
    BitVec.ofBool t.busyacc ++ BitVec.ofBool t.err ++ BitVec.ofBool t.done ++ BitVec.ofBool t.busy

/-- The word a read of CTRL returns: zext_32(CTRL[1:0]) (R32, R75). -/
def Ctrl.toWord (c : Ctrl) : Word := 0#30 ++ BitVec.ofBool c.irqEn ++ BitVec.ofBool c.pivot

/-- A write of v to CTRL stores v[1:0] and ignores the rest (R32, R76). -/
def ctrlOfWord (v : Word) : Ctrl := { pivot := v.getLsbD 0, irqEn := v.getLsbD 1 }

/-- The word a read of DIM[s] returns: zext_32({COLS, ROWS}) (R39, R75). -/
def Dim.toWord (d : Dim) : Word := 0#16 ++ d.cols ++ d.rows

/-- ID = {0x01, CMAX, NMAX, 29} (R31). -/
def idWord (p : Params) : Word :=
  Config.version ++ BitVec.ofNat 8 p.cmax ++ BitVec.ofNat 8 p.nmax ++ 29#8

/-- Write-1-to-clear of DONE, ERR and BUSYACC by a write of v to STATUS; BUSY and ECODE never change (R35, R76). -/
def Status.writeOneToClear (t : Status) (v : Word) : Status :=
  { t with
    done := t.done && !v.getLsbD 1
    err := t.err && !v.getLsbD 2
    busyacc := t.busyacc && !v.getLsbD 3 }

/-- STATUS after an acceptance: DONE <- 0, BUSY <- 1, the rest unchanged (R190). -/
def Status.accepted (t : Status) : Status := { t with done := false, busy := true }

/-- STATUS after complete(code): ECODE <- code, ERR set unless OK, DONE <- 1, BUSY <- 0 (R191). -/
def Status.completed (t : Status) (code : CompletionCode) : Status :=
  { t with
    ecode := code
    err := t.err || code != .ok
    done := true
    busy := false }

/-- STATUS after a blocked access: BUSYACC <- 1 (R199). -/
def Status.blocked (t : Status) : Status := { t with busyacc := true }

/-- irq = CTRL.IRQ_EN AND STATUS.DONE, at every moment (R200, R34). -/
def irq (s : State) : Bool := s.ctrl.irqEn && s.status.done

/-- A shape a DIM register may hold: the sentinel's 0×0, or 1 ≤ ROWS ≤ NMAX and 1 ≤ COLS ≤ CMAX (R39, R40). -/
def Dim.legal (p : Params) (d : Dim) : Bool :=
  (d.rows == 0 && d.cols == 0) ||
    (1 ≤ d.rows.toNat && d.rows.toNat ≤ p.nmax && 1 ≤ d.cols.toNat && d.cols.toNat ≤ p.cmax)

/-- The shape a write of v to DIM[s] sets: (v[7:0], v[15:8]) if it is a legal shape, else the sentinel's 0×0 (R40). -/
def dimOfWord (p : Params) (v : Word) : Dim :=
  if (Dim.mk (v.extractLsb' 0 8) (v.extractLsb' 8 8)).legal p then
    ⟨v.extractLsb' 0 8, v.extractLsb' 8 8⟩
  else ⟨0, 0⟩

end Sys2Proof.Machine
end

