-- ==== Sys2Proof/Machine/Operands.lean ====
section
/-! DEFINITION. Where operands are: the storage read byte by byte, the addresses of the slot windows (20_memory.md R70–R74),
the matrix a slot holds (00_scope.md R12), and the scalar operands (30_encoding.md R104). -/

namespace Sys2Proof.Machine

/-- What an unlisted offset reads as: 0, the reset content of every element (R220) and what a window word without an element
reads as (R73). -/
def blankByte : Byte := 0

/-- The byte at an offset. -/
def Memory.read : Memory → Nat → Byte
  | [], _ => blankByte
  | (k, b) :: m, a => if k = a then b else Memory.read m a

/-- WBASE(s) = 0x1000 · (s + 1) (R72). -/
def wbase (sl : SlotNo) : Nat := 0x1000 * (sl.val + 1)

/-- off(s, i, j) = WBASE(s) + 4 · (j · NMAX + i): column-major, column stride NMAX (R72). -/
def elemAddr (p : Params) (sl : SlotNo) (i j : Nat) : Nat := wbase sl + 4 * (j * p.nmax + i)

/-- The stored byte of slot[sl].e[i][j] (R42, R44). -/
def elemByte (s : State) (sl : SlotNo) (i j : Nat) : Byte := s.mem.read (elemAddr s.params sl i j)

/-- slot[sl].e[i][j] as a residue (R12, R42). -/
def elem (s : State) (sl : SlotNo) (i j : Nat) : Residue := byteResidue (elemByte s sl i j)

/-- slot[sl].rows (R39). -/
def rows (s : State) (sl : SlotNo) : Nat := (s.dim.get sl).rows.toNat

/-- slot[sl].cols (R39). -/
def cols (s : State) (sl : SlotNo) : Nat := (s.dim.get sl).cols.toNat

/-- value(s): the rows × cols array of slot sl; the empty matrix, which stands for SENTINEL, when rows = 0 (R12, R14). -/
def value (s : State) (sl : SlotNo) : Mat := matOf (rows s sl) (cols s sl) (elem s sl)

/-- normalize(sint(OPA)) (R104, R133–R137). -/
def operandA (s : State) : Residue := normalize29 (sint s.opa)

/-- normalize(sint(OPB)) (R104, R134–R136). -/
def operandB (s : State) : Residue := normalize29 (sint s.opb)

/-- What an aligned offset names (R71–R74). -/
inductive Target where
  | id | ctrl | status | cmd | opa | opb | res
  /-- DIM[sl]. -/
  | dim (sl : SlotNo)
  /-- Element (i, j) of slot sl. -/
  | elem (sl : SlotNo) (i j : Nat)
  /-- A reserved register offset, a window word that holds no element, or an offset from 0x5000 up. -/
  | empty
  deriving DecidableEq, Repr

/-- The slot whose window holds an offset in 0x1000..0x4FFF (R72). -/
def windowSlot (a : Nat) : SlotNo := Fin.ofNat 4 (a / 0x1000 - 1)

/-- The word index q of an offset within its window (R72). -/
def windowIndex (a : Nat) : Nat := a % 0x1000 / 4

/-- The slot-window part of the map: word q of a window is element (q mod NMAX, q div NMAX) if q < NMAX·CMAX, and holds no
element otherwise (R72, R73). -/
def windowTarget (p : Params) (a : Nat) : Target :=
  if windowIndex a < p.nmax * p.cmax then
    .elem (windowSlot a) (windowIndex a % p.nmax) (windowIndex a / p.nmax)
  else .empty

/-- The register part of the map (R71); the reserved offsets 0x01C and 0x030–0xFFC hold nothing (R74). -/
def registerTarget (off : Offset) : Target :=
  if off = 0x000 then .id
  else if off = 0x004 then .ctrl
  else if off = 0x008 then .status
  else if off = 0x00C then .cmd
  else if off = 0x010 then .opa
  else if off = 0x014 then .opb
  else if off = 0x018 then .res
  else if off = 0x020 then .dim 0
  else if off = 0x024 then .dim 1
  else if off = 0x028 then .dim 2
  else if off = 0x02C then .dim 3
  else .empty

/-- The address map, for an offset that is a multiple of 4: registers 0x0000–0x0FFF, the four slot windows 0x1000–0x4FFF, and
nothing from 0x5000 up (R70, R74). -/
def target (p : Params) (off : Offset) : Target :=
  if off.toNat < 0x1000 then registerTarget off
  else if off.toNat < 0x5000 then windowTarget p off.toNat
  else .empty

/-- The targets whose read is blocked while BUSY = 1 (R75). -/
def Target.readBlocks : Target → Bool
  | .dim _ | .res | .elem _ _ _ => true
  | .id | .ctrl | .status | .cmd | .opa | .opb | .empty => false

/-- The targets whose write is dropped while BUSY = 1 (R76). -/
def Target.writeBlocks : Target → Bool
  | .cmd | .opa | .opb | .dim _ | .elem _ _ _ => true
  | .id | .ctrl | .status | .res | .empty => false

end Sys2Proof.Machine
end

