-- ==== Sys2Proof/Machine/Ops.lean ====
section
/-! DEFINITION. The shared operations over the storage and the registers: writing a byte and an element, the slot write-back
primitives (10_state.md R47, R48), accepting a command (60_exceptions.md R190), completing one (R191: the block's only
exception primitive, R12) and the reset of the block (R220, R221). -/

namespace Sys2Proof.Machine

/-- A cell put at its place in a memory of rising offsets. -/
def Memory.insert : Memory → Nat → Byte → Memory
  | [], a, b => [(a, b)]
  | (k, c) :: m, a, b => if a < k then (a, b) :: (k, c) :: m else (k, c) :: Memory.insert m a b

/-- Write one byte, in canonical form: writing what an unlisted offset reads as removes the entry. -/
def Memory.write (m : Memory) (a : Nat) (b : Byte) : Memory :=
  if b = blankByte then m.filter (fun c => c.1 != a)
  else Memory.insert (m.filter (fun c => c.1 != a)) a b

/-- slot[sl].e[i][j] <- r (R43, R47, R48). -/
def setElem (sl : SlotNo) (i j : Nat) (r : Residue) (s : State) : State :=
  { s with mem := s.mem.write (elemAddr s.params sl i j) (residueByte r) }

/-- slot[sl].rows, slot[sl].cols <- d (R40, R47, R48). -/
def setDim (sl : SlotNo) (d : Dim) (s : State) : State := { s with dim := s.dim.set sl.val d }

/-- The element positions of a slot in window order: (q mod NMAX, q div NMAX) for q < NMAX·CMAX (R72). -/
def positions (p : Params) : List (Nat × Nat) :=
  (List.range (p.nmax * p.cmax)).map fun q => (q % p.nmax, q / p.nmax)

/-- Every element of a slot in one step: slot[sl].e[i][j] <- f i j for all i < NMAX, j < CMAX (R47, R48). -/
def setElems (sl : SlotNo) (f : Nat → Nat → Residue) (s : State) : State :=
  (positions s.params).foldl (fun t ij => setElem sl ij.1 ij.2 (f ij.1 ij.2) t) s

/-- writeResult(s, m, k, X): the shape becomes m×k, the value X, every other element 0 (R47). -/
def writeResult (sl : SlotNo) (m k : Nat) (X : Mat) (s : State) : State :=
  setElems sl (fun i j => if i < m ∧ j < k then entry X i j else 0)
    (setDim sl ⟨BitVec.ofNat 8 m, BitVec.ofNat 8 k⟩ s)

/-- setSentinel(s): the shape becomes 0×0 and every element 0 (R48). -/
def setSentinel (sl : SlotNo) (s : State) : State :=
  setElems sl (fun _ _ => 0) (setDim sl ⟨0, 0⟩ s)

/-- RES <- zext_32(r) (R38). -/
def setRes (r : Residue) (s : State) : State := { s with res := r }

/-- accept(v) (R190): CMD <- v, LPIVOT <- CTRL.PIVOT, DONE <- 0, BUSY <- 1. -/
def accept (v : Word) (s : State) : State :=
  { s with cmd := v, lpivot := s.ctrl.pivot, status := s.status.accepted }

/-- complete(code) (R191), the end of every command; it is the block's counterpart of taking an exception, and there is no
return from one (R196, R197). -/
def complete (code : CompletionCode) (s : State) : State :=
  { s with status := s.status.completed code }

/-- A blocked Host access sets BUSYACC and does nothing else (R199). -/
def blockAccess (s : State) : State := { s with status := s.status.blocked }

/-- The reset input (R220, R221): every piece of the block's state takes its reset value; ID's parameters are a constant and
stay. What is scheduled and what has been read are no state of the block. -/
def resetBlock (s : State) : State :=
  { State.reset with params := s.params, inbox := s.inbox, reads := s.reads, busyPolls := s.busyPolls }

end Sys2Proof.Machine
end

