-- ==== Sys2Proof/Machine/Bus.lean ====
section
/-! DEFINITION. The Host's bus accesses (20_memory.md R75–R79): MemRead, MemWrite and the bus error of every other access. -/

namespace Sys2Proof.Machine

/-- The value a read of a target returns when it is not blocked (R75). -/
def readTarget (s : State) : Target → Word
  | .id => idWord s.params
  | .ctrl => s.ctrl.toWord
  | .status => s.status.toWord
  | .cmd => s.cmd
  | .opa => s.opa
  | .opb => s.opb
  | .res => zext32 s.res
  | .dim sl => (s.dim.get sl).toWord
  | .elem sl i j => (elemByte s sl i j).setWidth 32
  | .empty => 0

/-- What a write of v to a target does when it is not blocked (R76); ID, RES and the empty words ignore it (R71, R73, R74). -/
def writeTarget (v : Word) (s : State) : Target → State
  | .ctrl => { s with ctrl := ctrlOfWord v }
  | .status => { s with status := s.status.writeOneToClear v }
  | .cmd => accept v s
  | .opa => { s with opa := v }
  | .opb => { s with opb := v }
  | .dim sl => setDim sl (dimOfWord s.params v) s
  | .elem sl i j => setElem sl i j (mod29 (sint v)) s
  | .id => s
  | .res => s
  | .empty => s

/-- MemRead(off, 4) (R75): the value returned and the state after it. -/
def memRead (off : Offset) (s : State) : Word × State :=
  if (target s.params off).readBlocks && s.status.busy then (0, blockAccess s)
  else (readTarget s (target s.params off), s)

/-- MemWrite(off, 4, v) (R76). -/
def memWrite (off : Offset) (v : Word) (s : State) : State :=
  if (target s.params off).writeBlocks && s.status.busy then blockAccess s
  else writeTarget v s (target s.params off)

/-- The only defined access: 32 bits at a multiple of 4 (R77). -/
def accessDefined (size : Nat) (off : Offset) : Bool := size == 4 && off.toNat % 4 == 0

/-- One poll of a `WAIT` loop (R110): t is what MemRead(0x008, 4) returns; with t[0] = 1 the loop goes on and the value is recorded
as a repeated poll's, else it is recorded as a read's value. The block's own state is as the read leaves it (R75). -/
def waitPoll (s : State) : State :=
  if (memRead 0x008 s).1.getLsbD 0 then
    { (memRead 0x008 s).2 with busyPolls := s.busyPolls ++ [(s.reads.length, (memRead 0x008 s).1)] }
  else { (memRead 0x008 s).2 with reads := s.reads ++ [(memRead 0x008 s).1] }

/-- One Host access; a read's value goes to the Host (R7), and an access that is not defined is a bus error (R77). -/
def hostAccess (a : Access) (s : State) : Host.Outcome State Fault Refusal :=
  match a with
  | .read size off =>
    if accessDefined size off then
      .next { (memRead off s).2 with reads := s.reads ++ [(memRead off s).1] }
    else .fault .busError
  | .write size off v =>
    if accessDefined size off then .next (memWrite off v s) else .fault .busError
  | .poll => .next (waitPoll s)

end Sys2Proof.Machine
end

