-- ==== Sys2Proof/Machine/Inverter.lean ====
section
/-! DEFINITION. MATINV (41_matrix_inverter.md R150–R160): Gauss-Jordan elimination over Z/29Z with the pivoting policy in LPIVOT. -/

namespace Sys2Proof.Machine

/-- W and ACC, the n×n arrays internal to the Engine (R152, R45). -/
structure Augmented where
  w : Mat
  acc : Mat
  deriving DecidableEq, Repr

/-- Rows j and k of an n×n matrix swapped (R154). -/
def swapRows (n j k : Nat) (A : Mat) : Mat :=
  matOf n n fun r c => entry A (if r = j then k else if r = k then j else r) c

/-- Row j of an n×n matrix multiplied by p (R155). -/
def scaleRow (n j : Nat) (p : Residue) (A : Mat) : Mat :=
  matOf n n fun r c => if r = j then mul29 (entry A j c) p else entry A r c

/-- f times row j subtracted from row k of an n×n matrix (R156). -/
def subtractRow (n j k : Nat) (f : Residue) (A : Mat) : Mat :=
  matOf n n fun r c => if r = k then sub29 (entry A k c) (mul29 f (entry A j c)) else entry A r c

/-- The smallest r with j < r < n and W[r][j] ≠ 0 (R154). -/
def lowerPivot (n j : Nat) (W : Mat) : Option Nat :=
  (List.range n).find? fun r => decide (j < r) && entry W r j != 0

/-- Step 1 (R153, R154): W and ACC with a nonzero pivot at (j, j), or `none` when the policy finds none. -/
def pivotStep (lpivot : Bool) (n j : Nat) (x : Augmented) : Option Augmented :=
  if entry x.w j j ≠ 0 then some x
  else if !lpivot then none
  else match lowerPivot n j x.w with
    | some k => some ⟨swapRows n j k x.w, swapRows n j k x.acc⟩
    | none => none

/-- Step 2 (R155): row j of W and of ACC multiplied by p. -/
def scaleStep (n j : Nat) (p : Residue) (x : Augmented) : Augmented :=
  ⟨scaleRow n j p x.w, scaleRow n j p x.acc⟩

/-- One row of step 3 (R156): the factor is read before row k changes, and a row whose factor is 0 is left as it is. -/
def eliminateRow (n j k : Nat) (x : Augmented) : Augmented :=
  if k = j ∨ entry x.w k j = 0 then x
  else ⟨subtractRow n j k (entry x.w k j) x.w, subtractRow n j k (entry x.w k j) x.acc⟩

/-- Step 3 (R156): every row k ≠ j in increasing k. -/
def eliminateStep (n j : Nat) (x : Augmented) : Augmented :=
  (List.range n).foldl (fun y k => eliminateRow n j k y) x

/-- One pivot column (R152): steps 1 to 3; `none` is SINGULAR. -/
def pivotColumn (lpivot : Bool) (n j : Nat) (x : Augmented) : Option Augmented :=
  match pivotStep lpivot n j x with
  | none => none
  | some y =>
    match inv29 (entry y.w j j) with
    | none => none
    | some p => some (eliminateStep n j (scaleStep n j p y))

/-- The pivot columns of the list, one after the other, stopping at the first that fails (R152, R153). -/
def pivotColumns (lpivot : Bool) (n : Nat) : List Nat → Augmented → Option Augmented
  | [], x => some x
  | j :: js, x =>
    match pivotColumn lpivot n j x with
    | none => none
    | some y => pivotColumns lpivot n js y

/-- The inverter on an n×n matrix (R152): ACC, or `none` for SINGULAR; the final check is R157. -/
def invert (lpivot : Bool) (n : Nat) (A : Mat) : Option Mat :=
  match pivotColumns lpivot n (List.range n) ⟨A, identity n⟩ with
  | none => none
  | some x => if x.w = identity n then some x.acc else none

/-- MATINV Md, Ma (R150–R160): DIM for the sentinel or a source that is not square (R151), SINGULAR with the sentinel when the
inverter fails (R159), else the inverse written back (R158). The source is read before the write-back (R160). -/
def execMatinv (sd sa : SlotNo) (s : State) : Host.Outcome State Fault Refusal :=
  if rows s sa = 0 ∨ rows s sa ≠ cols s sa then
    .next (complete .dim (setSentinel sd s))
  else
    match invert s.lpivot (rows s sa) (value s sa) with
    | none => .next (complete .singular (setSentinel sd s))
    | some x => .next (complete .ok (writeResult sd (rows s sa) (rows s sa) x s))

end Sys2Proof.Machine
end

