-- ==== Sys2Proof/Machine/Multiply.lean ====
section
/-! DEFINITION. MATMUL (42_matrix_multiply.md R170–R174): the matrix product mod 29. -/

namespace Sys2Proof.Machine

/-- The sum over t = 0 .. p−1 of A[i][t] · B[t][j], on exact integers (R172). -/
def dot (p : Nat) (A B : Mat) (i j : Nat) : Int :=
  ((List.range p).map fun t => ((entry A i t).val : Int) * (entry B t j).val).sum

/-- The m×k product X of an m×p and a p×k matrix (R172). -/
def product (m p k : Nat) (A B : Mat) : Mat := matOf m k fun i j => mod29 (dot p A B i j)

/-- MATMUL Md, Ma, Mb (R170–R174): DIM if a factor is the sentinel or the inner dimensions differ (R171), else the product
written back (R173). Both factors are read before the write-back (R174). -/
def execMatmul (sd sa sb : SlotNo) (s : State) : Host.Outcome State Fault Refusal :=
  if rows s sa = 0 ∨ rows s sb = 0 ∨ cols s sa ≠ rows s sb then
    .next (complete .dim (setSentinel sd s))
  else
    .next (complete .ok (writeResult sd (rows s sa) (cols s sb)
      (product (rows s sa) (cols s sa) (cols s sb) (value s sa) (value s sb)) s))

end Sys2Proof.Machine
end

