-- ==== Sys2Proof/Machine/Scalar.lean ====
section
/-! DEFINITION. The scalar commands MRED, MADD, MSUB, MMUL and MINV (40_modular_arithmetic.md R133–R137): they read OPA and OPB,
write RES and complete; they never touch a slot. -/

namespace Sys2Proof.Machine

/-- A scalar command's end: RES <- zext_32(r); complete(code). -/
def completeScalar (r : Residue) (code : CompletionCode) (s : State) :
    Host.Outcome State Fault Refusal :=
  .next (complete code (setRes r s))

/-- MRED (R133): RES <- normalize(sint(OPA)); OK. -/
def execMred (s : State) : Host.Outcome State Fault Refusal :=
  completeScalar (operandA s) .ok s

/-- MADD (R134): RES <- add29 of the operands' residues; OK. -/
def execMadd (s : State) : Host.Outcome State Fault Refusal :=
  completeScalar (add29 (operandA s) (operandB s)) .ok s

/-- MSUB (R135): RES <- sub29 of the operands' residues; OK. -/
def execMsub (s : State) : Host.Outcome State Fault Refusal :=
  completeScalar (sub29 (operandA s) (operandB s)) .ok s

/-- MMUL (R136): RES <- mul29 of the operands' residues; OK. -/
def execMmul (s : State) : Host.Outcome State Fault Refusal :=
  completeScalar (mul29 (operandA s) (operandB s)) .ok s

/-- MINV (R137): RES <- INV29[r] and OK, or RES <- 0 and NOINV when OPA's residue r has no inverse. -/
def execMinv (s : State) : Host.Outcome State Fault Refusal :=
  match inv29 (operandA s) with
  | some x => completeScalar x .ok s
  | none => completeScalar 0 .noinv s

end Sys2Proof.Machine
end

