-- ==== Sys2Proof/Machine/Dispatch.lean ====
section
/-! DEFINITION. exec: one arm per command of the opcode map, each the one direct call of its meaning (60_exceptions.md R191). -/

namespace Sys2Proof.Machine

def exec (i : Instr) (s : State) : Host.Outcome State Fault Refusal :=
  match i with
  | .mred => Sys2Proof.Machine.execMred s
  | .madd => Sys2Proof.Machine.execMadd s
  | .msub => Sys2Proof.Machine.execMsub s
  | .mmul => Sys2Proof.Machine.execMmul s
  | .minv => Sys2Proof.Machine.execMinv s
  | .matinv sd sa => Sys2Proof.Machine.execMatinv sd sa s
  | .matmul sd sa sb => Sys2Proof.Machine.execMatmul sd sa sb s

end Sys2Proof.Machine
end

