-- ==== Sys2Proof/Machine/Engine.lean ====
section
/-! DEFINITION. The Engine: its one kind of step, the completion of the pending command (00_scope.md R5; 60_exceptions.md R191). -/

namespace Sys2Proof.Machine

/-- An illegal word's completion: nothing but complete(ILLEGAL) (R191, R105). -/
def execIllegal (s : State) : Host.Outcome State Fault Refusal := .next (complete .illegal s)

/-- The completion step (R191): decode the word in CMD and run the selected command, or complete(ILLEGAL). -/
def completion (s : State) : Host.Outcome State Fault Refusal :=
  match decode s.cmd with
  | .ok i => exec i s
  | .error _ => execIllegal s

/-- The Engine's turn: the completion is enabled exactly when BUSY = 1 (R191); otherwise the block is idle (R203). -/
def engineTurn (s : State) : Host.Outcome State Fault Refusal :=
  if s.status.busy then completion s else .next s

end Sys2Proof.Machine
end

