-- ==== Sys2Proof/Machine/Step.lean ====
section
/-! DEFINITION. One step of the machine: the next scheduled event (00_scope.md R5, R7; 20_memory.md R80), and the entry point that
places a command word where the Engine takes its next command (30_encoding.md R107). -/

namespace Sys2Proof.Machine

/-- One step. The schedule says which agent moves (R80); when it is used up the Engine still takes its enabled completion
(R229), and an idle block stays as it is (R203). -/
def step (s : State) : Host.Outcome State Fault Refusal :=
  match s.inbox with
  | [] => engineTurn s
  | .host a :: rest => hostAccess a { s with inbox := rest }
  | .engine :: rest => engineTurn { s with inbox := rest }
  | .reset :: rest => .next (resetBlock { s with inbox := rest })

/-- s with the command word w accepted (R190) and the Engine's turn next, so that the next step completes exactly that command
(log entry 4). Bits from nbits up are 0; the block has one 32-bit command word (R100). -/
def State.withFetchWord (s : State) (nbits w : Nat) : State :=
  { accept (BitVec.ofNat 32 (w % 2 ^ nbits)) s with inbox := .engine :: s.inbox }

end Sys2Proof.Machine
end

