-- ==== Sys2Proof/Machine/HostProgram.lean ====
section
/-! DEFINITION. The Host access syntax and the pseudo-instructions of 30_encoding.md R109, R110, each as the list of Host steps it
expands to. A list of them, with Engine turns among them, is what State.inbox holds. -/

namespace Sys2Proof.Machine.HostProgram

/-- `WR off, v` (R109). An offset is a number below 0x10000 (R70); a larger one is taken mod 2^16, which is the model's choice (log
entry 14). -/
def wr (off : Nat) (v : Word) : Event := .host (.write 4 (BitVec.ofNat 16 off) v)

/-- `RD off` (R109); a larger offset as in `wr` (log entry 14). -/
def rd (off : Nat) : Event := .host (.read 4 (BitVec.ofNat 16 off))

/-- `LDOP a, b` (R110). -/
def ldop (a b : Word) : List Event := [wr 0x010 a, wr 0x014 b]

/-- The offset of DIM[s] (R71). -/
def dimOffset (sl : SlotNo) : Nat := 0x020 + 4 * sl.val

/-- `SETDIM Ms, r, c` (R110): the word written is (c << 8) | r. For an r or c with which that exceeds 32 bits, where the spec gives no
word, its low 32 bits are written, which is the model's choice (log entry 14). -/
def setdim (sl : SlotNo) (r c : Nat) : List Event :=
  [wr (dimOffset sl) (BitVec.ofNat 32 c <<< 8 ||| BitVec.ofNat 32 r)]

/-- `LDM Ms, r, c, {v0, v1, …}` (R110): the shape, then the values in column-wise order, v_q to element (q mod r, q div r). For an
element outside NMAX×CMAX, where R72 gives no offset, the formula of R72 is used all the same, a value that is missing
from the list is 0, and the shape's word is as in `setdim` (log entry 14). -/
def ldm (p : Params) (sl : SlotNo) (r c : Nat) (vs : List Word) : List Event :=
  setdim sl r c ++
    (List.range (r * c)).map fun q => wr (elemAddr p sl (q % r) (q / r)) (vs.getD q 0)

/-- `CMD c` (R110). -/
def cmd (i : Instr) : List Event := [wr 0x00C (encode i)]

/-- `WAIT` (R110) when the Engine completes after `before` polls that returned BUSY = 1 (the number is not fixed by any rule and
not part of a run's result, R230 and 93_implementation_defined.md I16), and the poll that sees BUSY = 0. -/
def wait (before : Nat) : List Event := List.replicate before (.host .poll) ++ [.engine, .host .poll]

/-- `RUN c` (R110): CMD c, then WAIT. -/
def run (i : Instr) (before : Nat) : List Event := cmd i ++ wait before

/-- `ACK` (R110): clears DONE, ERR and BUSYACC. -/
def ack : List Event := [wr 0x008 0x0000000E]

/-- `STM Ms` (R110) for a slot whose DIM read gives r rows and c columns: column by column; an element
outside NMAX×CMAX as in `ldm` (log entry 14). -/
def stm (p : Params) (sl : SlotNo) (r c : Nat) : List Event :=
  rd (dimOffset sl) ::
    (List.range (r * c)).map fun q => rd (elemAddr p sl (q % r) (q / r))

end Sys2Proof.Machine.HostProgram
end

