-- ==== Sys2Proof/Safety.lean ====
section
/-! DEFINITION. What a claim calls well-formed and safe: the canonical form of the storage, the reachable shapes and residues
(10_state.md R39, R42), the machine's invariant, a Host that keeps 70_reset_and_hazards.md R224, the end of a run (R230), and
the slot values as matrices over the ring Z/29Z (00_scope.md R1). -/

namespace Sys2Proof.Machine

/-- The state a step answers, if it answers one. -/
def nextState (o : Host.Outcome State Fault Refusal) : Option State :=
  match o with
  | .next s => some s
  | .fault _ => none
  | .refused _ => none

/-- Every offset of a memory lies above a bound. -/
def Memory.above (a : Nat) (m : Memory) : Bool := m.all fun c => a < c.1

/-- The canonical form: offsets strictly rising, and no entry equal to what an unlisted offset reads as. -/
def Memory.wf : Memory → Bool
  | [] => true
  | (a, b) :: m => Memory.above a m && b != blankByte && Memory.wf m

/-- The low byte of an element's window word (R72, R78). -/
def isElemAddr (p : Params) (a : Nat) : Bool :=
  0x1000 ≤ a && a < 0x5000 && a % 4 == 0 && windowIndex a < p.nmax * p.cmax

/-- Only elements are stored, and only residues are stored in them (R42). -/
def Memory.residuesOnly (p : Params) (m : Memory) : Bool :=
  m.all fun c => isElemAddr p c.1 && c.2.toNat < 29

/-- Every DIM register holds a legal shape (R39). -/
def shapesLegal (s : State) : Bool :=
  (s.dim.get 0).legal s.params && (s.dim.get 1).legal s.params &&
    (s.dim.get 2).legal s.params && (s.dim.get 3).legal s.params

/-- The invariant of the block: parameters as R8 allows, canonical storage of residues in element words (R42), legal shapes
(R39), and DONE = 0 while a command is pending (R190, R225). -/
abbrev Inv (s : State) : Prop :=
  s.params.Legal ∧ Memory.wf s.mem = true ∧ Memory.residuesOnly s.params s.mem = true ∧
    shapesLegal s = true ∧ ¬(s.status.busy = true ∧ s.status.done = true)

/-- The bus error condition of the next event: a Host access that is not an aligned 32-bit access (R77). -/
def nextIsBusError (s : State) : Bool :=
  match s.inbox with
  | .host (.read size off) :: _ => !accessDefined size off
  | .host (.write size off _) :: _ => !accessDefined size off
  | .host .poll :: _ => false
  | .engine :: _ => false
  | .reset :: _ => false
  | [] => false

/-- The next event is a Host access that BUSY = 1 blocks (R75, R76, R199): what R224 forbids software to do. -/
def nextIsBlocked (s : State) : Bool :=
  match s.inbox with
  | .host (.read size off) :: _ =>
    s.status.busy && accessDefined size off && (target s.params off).readBlocks
  | .host (.write size off _) :: _ =>
    s.status.busy && accessDefined size off && (target s.params off).writeBlocks
  | .host .poll :: _ => false
  | .engine :: _ => false
  | .reset :: _ => false
  | [] => false

/-- The next event is an Engine turn: one that the schedule lists, or the one that follows its end (R229). -/
def nextIsEngine (s : State) : Bool :=
  match s.inbox with
  | .engine :: _ => true
  | [] => true
  | .host _ :: _ => false
  | .reset :: _ => false

/-- The next event is the reset input. -/
def nextIsReset (s : State) : Bool :=
  match s.inbox with
  | .reset :: _ => true
  | .host _ :: _ => false
  | .engine :: _ => false
  | [] => false

/-- The next event is a 32-bit Host write of v at the offset off. -/
def nextIsWrite (s : State) (off : Offset) (v : Word) : Prop :=
  ∃ rest, s.inbox = .host (.write 4 off v) :: rest

/-- The step that is the Host's `WR off, v` (R109), before everything already scheduled. -/
def hostWrite (off : Offset) (v : Word) (s : State) : Host.Outcome State Fault Refusal :=
  step { s with inbox := .host (.write 4 off v) :: s.inbox }

/-- The step that is the Host's `RD off` (R109), before everything already scheduled. -/
def hostRead (off : Offset) (s : State) : Host.Outcome State Fault Refusal :=
  step { s with inbox := .host (.read 4 off) :: s.inbox }

/-- The step that is one poll of the Host's `WAIT` (R110), before everything already scheduled. -/
def hostPoll (s : State) : Host.Outcome State Fault Refusal :=
  step { s with inbox := .host .poll :: s.inbox }

/-- The step that is the Engine's, before everything already scheduled. -/
def engineStep (s : State) : Host.Outcome State Fault Refusal :=
  step { s with inbox := .engine :: s.inbox }

/-- DIM[sl]'s offset (R71). -/
def dimOffset (sl : SlotNo) : Offset := BitVec.ofNat 16 (0x020 + 4 * sl.val)

/-- The offset of element (i, j) of slot sl (R72). -/
def elemOffset (p : Params) (sl : SlotNo) (i j : Nat) : Offset := BitVec.ofNat 16 (elemAddr p sl i j)

/-- Slot sl holds the sentinel with every element 0, as setSentinel leaves it (R48). -/
def sentinelIn (s : State) (sl : SlotNo) : Prop :=
  rows s sl = 0 ∧ cols s sl = 0 ∧
    ∀ i j, i < s.params.nmax → j < s.params.cmax → elemByte s sl i j = 0

/-- From s to t only slot sl and STATUS may have changed: every other register, every other shape and every byte outside the
elements of slot sl is as it was. -/
def slotFrame (sl : SlotNo) (s t : State) : Prop :=
  t.params = s.params ∧ t.ctrl = s.ctrl ∧ t.cmd = s.cmd ∧ t.opa = s.opa ∧ t.opb = s.opb ∧ t.res = s.res ∧
    t.lpivot = s.lpivot ∧ t.inbox = s.inbox ∧ t.reads = s.reads ∧ t.busyPolls = s.busyPolls ∧
    (∀ sl', sl' ≠ sl → t.dim.get sl' = s.dim.get sl') ∧
    ∀ a, (∀ i j, i < s.params.nmax → j < s.params.cmax → a ≠ elemAddr s.params sl i j) →
      Memory.read t.mem a = Memory.read s.mem a

/-- A Host access. -/
def Event.isHost : Event → Bool
  | .host _ => true
  | .engine => false
  | .reset => false

/-- A run of the Host's program is over: no Host access is left, and no command is pending (R230). Engine turns and resets that
the schedule still lists are no accesses of the program. -/
def runOver (s : State) : Bool := !s.inbox.any Event.isHost && !s.status.busy

/-- The result of a run (R230): the values the Host's reads returned, the final register and slot state, and the level of irq. The
polls a `WAIT` loop repeated are left out, so it does not tell how many there were (R230, 93_implementation_defined.md I16). -/
def runResult (s : State) : List Word × State × Bool :=
  (s.reads, { s with inbox := [], reads := [], busyPolls := [] }, irq s)

/-- A residue matrix as a matrix over Z/29Z (R1, R13). -/
def toMatrix (m k : Nat) (A : Mat) : Matrix (Fin m) (Fin k) (ZMod 29) :=
  fun i j => ((entry A i.val j.val).val : ZMod 29)

/-- value(s) as an n×n matrix over Z/29Z. -/
def squareValue (s : State) (sl : SlotNo) (n : Nat) : Matrix (Fin n) (Fin n) (ZMod 29) :=
  toMatrix n n (value s sl)

end Sys2Proof.Machine
end

