-- ==== Sys2Proof/Certificates/Slice0/Obligations.lean ====
section
/-! DEFINITION. The statements for the provers, in the order of OBLIGATIONS.json. `hostRead`, `hostWrite` and `engineStep` are one
step of the machine with that event first; `sentinelIn` and `slotFrame` say what a slot holds and what a command leaves
unchanged (Safety.lean). -/

open Sys2Proof Sys2Proof.Machine

/-! ### Modular arithmetic primitives -/

/-- R130. -/
def Obligations.NormalizeIsTheFloorResidue : Prop :=
  ∀ a : Int,
    0 ≤ ((normalize29 a).val : Int) ∧ ((normalize29 a).val : Int) ≤ 28 ∧ (29 : Int) ∣ a - (normalize29 a).val ∧
    (∀ r : Residue, (29 : Int) ∣ a - r.val → r = normalize29 a) ∧
    (a < 0 → trem29 a ≠ 0 → ((normalize29 a).val : Int) = 29 + trem29 a) ∧
    (0 ≤ a → ((normalize29 a).val : Int) = trem29 a) ∧
    normalize29 (-29) = 0 ∧ normalize29 (-2 ^ 31) = 21 ∧ normalize29 (2 ^ 31 - 1) = 7

/-- R131. -/
def Obligations.InverseTableHoldsTheInverses : Prop :=
  (∀ r : Residue, r ≠ 0 → ∃ x : Residue, inv29 r = some x ∧ r.val * x.val % 29 = 1 ∧
      ∀ y : Residue, r.val * y.val % 29 = 1 → y = x) ∧
  inv29 0 = none ∧
  (∀ r x : Residue, inv29 r = some x → inv29 x = some r) ∧
  (∀ r : Residue, inv29 r = some r ↔ r = 1 ∨ r = 28) ∧
  (List.range 28).map (fun k => inv29 (mod29 (k + 1))) =
    (([1, 15, 10, 22, 6, 5, 25, 11, 13, 3, 8, 17, 9, 27] ++
      [2, 20, 12, 21, 26, 16, 18, 4, 24, 23, 7, 19, 14, 28] : List Residue)).map some

/-- R132. -/
def Obligations.ResidueOperationsAreExact : Prop :=
  ∀ x y : Residue,
    ((add29 x y).val : Int) = ((x.val : Int) + y.val) % 29 ∧
    ((sub29 x y).val : Int) = ((x.val : Int) - y.val) % 29 ∧
    ((mul29 x y).val : Int) = ((x.val : Int) * y.val) % 29 ∧ x.val * y.val ≤ 784

/-! ### Scalar commands -/

/-- R133. -/
def Obligations.MredReducesOpa : Prop :=
  (∀ v : Word, decode v = .ok .mred ↔ v = 0x00000001#32) ∧
  ∀ s : State, ∃ r : Residue, (r.val : Int) = s.opa.toInt % 29 ∧ zext32 r = BitVec.ofNat 32 r.val ∧
    exec .mred s = .next { s with
      res := r
      status := { s.status with busy := false, done := true, ecode := .ok } }

/-- R134. -/
def Obligations.MaddAddsModulo29 : Prop :=
  (∀ v : Word, decode v = .ok .madd ↔ v = 0x00000002#32) ∧
  ∀ s : State, ∃ r : Residue, (r.val : Int) = (s.opa.toInt + s.opb.toInt) % 29 ∧
    r = add29 (normalize29 s.opa.toInt) (normalize29 s.opb.toInt) ∧
    exec .madd s = .next { s with
      res := r
      status := { s.status with busy := false, done := true, ecode := .ok } }

/-- R135. -/
def Obligations.MsubSubtractsModulo29 : Prop :=
  (∀ v : Word, decode v = .ok .msub ↔ v = 0x00000003#32) ∧
  ∀ s : State, ∃ r : Residue, (r.val : Int) = (s.opa.toInt - s.opb.toInt) % 29 ∧
    r = sub29 (normalize29 s.opa.toInt) (normalize29 s.opb.toInt) ∧
    exec .msub s = .next { s with
      res := r
      status := { s.status with busy := false, done := true, ecode := .ok } }

/-- R136. -/
def Obligations.MmulMultipliesModulo29 : Prop :=
  (∀ v : Word, decode v = .ok .mmul ↔ v = 0x00000004#32) ∧
  ∀ s : State, ∃ r : Residue, (r.val : Int) = (s.opa.toInt * s.opb.toInt) % 29 ∧
    r = mul29 (normalize29 s.opa.toInt) (normalize29 s.opb.toInt) ∧
    exec .mmul s = .next { s with
      res := r
      status := { s.status with busy := false, done := true, ecode := .ok } }

/-- R137. -/
def Obligations.MinvLooksUpTheInverse : Prop :=
  (∀ v : Word, decode v = .ok .minv ↔ v = 0x00000005#32) ∧
  ∀ s : State,
    (s.opa.toInt % 29 = 0 →
      exec .minv s = .next { s with
        res := 0
        status := { s.status with busy := false, done := true, err := true, ecode := .noinv } }) ∧
    (s.opa.toInt % 29 ≠ 0 → ∃ x : Residue,
      inv29 (normalize29 s.opa.toInt) = some x ∧ s.opa.toInt * x.val % 29 = 1 ∧ x ≠ 0 ∧
      exec .minv s = .next { s with
        res := x
        status := { s.status with busy := false, done := true, ecode := .ok } })

/-- 40_modular_arithmetic.md R138: the laws of the scalar commands, over the results the commands write. -/
def Obligations.ScalarCommandsObeyTheRingLaws : Prop :=
  ∀ s : State,
    let run := fun (i : Instr) (a b : Word) => (nextState (exec i { s with opa := a, opb := b })).map (·.res)
    let code := fun (i : Instr) (a b : Word) =>
      (nextState (exec i { s with opa := a, opb := b })).map (·.status.ecode)
    (∀ i ∈ [Instr.mred, .madd, .msub, .mmul, .minv], ∀ a a' b b' : Word,
      a.toInt % 29 = a'.toInt % 29 → b.toInt % 29 = b'.toInt % 29 →
        run i a b = run i a' b' ∧ code i a b = code i a' b' ∧
          (code i a b ≠ some .ok → i = .minv ∧ a.toInt % 29 = 0)) ∧
    (∀ a b : Word, run .madd a b = run .madd b a ∧ run .mmul a b = run .mmul b a) ∧
    (∀ (a b c : Word) (x y : Residue), run .madd a b = some x → run .madd b c = some y →
      run .madd (zext32 x) c = run .madd a (zext32 y)) ∧
    (∀ (a b c : Word) (x y : Residue), run .mmul a b = some x → run .mmul b c = some y →
      run .mmul (zext32 x) c = run .mmul a (zext32 y)) ∧
    (∀ (a b c : Word) (x y z : Residue), run .madd b c = some x → run .mmul a b = some y → run .mmul a c = some z →
      run .mmul a (zext32 x) = run .madd (zext32 y) (zext32 z)) ∧
    (∀ a b : Word, normalize29 b.toInt ≠ 0 →
      run .msub a b = run .madd a (BitVec.ofNat 32 (29 - (normalize29 b.toInt).val))) ∧
    (∀ a b : Word, normalize29 b.toInt = 0 → run .msub a b = run .mred a b) ∧
    (∀ (a b : Word) (x : Residue), run .minv a b = some x → code .minv a b = some .ok →
      run .mmul a (zext32 x) = some 1)

/-! ### Encoding -/

/-- Decode and encode agree, in both directions, over all 2^32 words (30_encoding.md R103, R107, R108). -/
def Obligations.DecodeIsTheInverseOfEncode : Prop :=
  ∀ (v : Word) (i : Instr), (decode v = .ok i ↔ v = encode i) ∧ i.WellFormed = true

/-- R105. -/
def Obligations.IllegalWordsCompleteWithIllegal : Prop :=
  (∀ v : Word, (∃ e, decode v = .error e) ↔
    (v.toNat / 2 ^ 14 ≠ 0 ∨
      (v.toNat % 256 = 0x00 ∨ (0x06 ≤ v.toNat % 256 ∧ v.toNat % 256 ≤ 0x0F) ∨ 0x12 ≤ v.toNat % 256) ∨
      (1 ≤ v.toNat % 256 ∧ v.toNat % 256 ≤ 5 ∧
        (v.toNat / 2 ^ 8 % 4 ≠ 0 ∨ v.toNat / 2 ^ 10 % 4 ≠ 0 ∨ v.toNat / 2 ^ 12 % 4 ≠ 0)) ∨
      (v.toNat % 256 = 0x10 ∧ v.toNat / 2 ^ 10 % 4 ≠ 0))) ∧
  ∀ (v : Word) (e : IllegalWord) (s : State), decode v = .error e → s.status.busy = false →
    ∃ t, hostWrite 0x00C v s = .next t ∧ t.cmd = v ∧ t.status.busy = true ∧
      engineStep t = .next { s with
        cmd := v
        lpivot := s.ctrl.pivot
        status := { s.status with busy := false, done := true, err := true, ecode := .illegal } }

/-- R103: the opcode map's match and mask columns select exactly the words the decoder reads as the row's command. -/
def Obligations.DecodeFollowsTheOpcodeMap : Prop :=
  ∀ v : Word,
    (decode v = .ok .mred ↔ v &&& 0xFFFFFFFF#32 = 0x00000001#32) ∧
    (decode v = .ok .madd ↔ v &&& 0xFFFFFFFF#32 = 0x00000002#32) ∧
    (decode v = .ok .msub ↔ v &&& 0xFFFFFFFF#32 = 0x00000003#32) ∧
    (decode v = .ok .mmul ↔ v &&& 0xFFFFFFFF#32 = 0x00000004#32) ∧
    (decode v = .ok .minv ↔ v &&& 0xFFFFFFFF#32 = 0x00000005#32) ∧
    ((∃ sd sa, decode v = .ok (.matinv sd sa)) ↔ v &&& 0xFFFFCCFF#32 = 0x00000010#32) ∧
    ((∃ sd sa sb, decode v = .ok (.matmul sd sa sb)) ↔ v &&& 0xFFFFC0FF#32 = 0x00000011#32)

/-- Words the spec writes out: 30_encoding.md R108, and 95_test_vectors.md W2, W3, P3, V-E. -/
def Obligations.WrittenOutWordsDecode : Prop :=
  decode 0x00000001 = .ok .mred ∧ decode 0x00000002 = .ok .madd ∧ decode 0x00000003 = .ok .msub ∧
  decode 0x00000004 = .ok .mmul ∧ decode 0x00000005 = .ok .minv ∧
  decode 0x00001010 = .ok (.matinv 1 0) ∧ decode 0x00003010 = .ok (.matinv 3 0) ∧
  decode 0x00000310 = .ok (.matinv 0 3) ∧ decode 0x00002411 = .ok (.matmul 2 0 1) ∧
  decode 0x00001B11 = .ok (.matmul 1 3 2) ∧ decode 0x00003911 = .ok (.matmul 3 1 2) ∧
  decode 0x00003C11 = .ok (.matmul 3 0 3) ∧
  decode 0x00000000 = .error .unassignedOpcode ∧ decode 0x00000101 = .error .scalarSlotField ∧
  decode 0x00000410 = .error .matinvSlotB ∧ decode 0x00004011 = .error .reservedBits

/-! ### The Engine's step -/

/-- 60_exceptions.md R191, 30_encoding.md R107: the step runs the decoded command; the completion is enabled exactly while BUSY = 1.
Where the Engine's turn comes from (`nextIsEngine`: the schedule in `inbox`) is the model's choice, log entry 2. -/
def Obligations.EngineStepRunsThePendingCommand : Prop :=
  ∀ s : State, nextIsEngine s = true →
    (s.status.busy = true → ∀ i, decode s.cmd = .ok i → step s = exec i { s with inbox := s.inbox.tail }) ∧
    (s.status.busy = true → ∀ e, decode s.cmd = .error e →
      step s = .next { s with
        inbox := s.inbox.tail
        status := { s.status with busy := false, done := true, err := true, ecode := .illegal } }) ∧
    (s.status.busy = false → step s = .next { s with inbox := s.inbox.tail })

/-- 60_exceptions.md R191, R205: every command goes on to a next state and ends in exactly one complete(code). -/
def Obligations.EveryCommandEndsInOneCompletion : Prop :=
  ∀ (i : Instr) (s : State), ∃ (t : State) (code : CompletionCode), exec i s = .next t ∧
    t.status = { s.status with
      ecode := code, err := s.status.err || code != .ok, done := true, busy := false } ∧
    t.params = s.params ∧ t.ctrl = s.ctrl ∧ t.cmd = s.cmd ∧ t.opa = s.opa ∧ t.opb = s.opb ∧ t.lpivot = s.lpivot ∧
    t.inbox = s.inbox ∧ t.reads = s.reads ∧ t.busyPolls = s.busyPolls

/-! ### Matrix commands -/

/-- R171, R172, R173, R174. -/
def Obligations.MatmulMultipliesSlots : Prop :=
  ∀ (s : State) (sd sa sb : SlotNo), Inv s →
    ((rows s sa = 0 ∨ rows s sb = 0 ∨ cols s sa ≠ rows s sb) →
      ∃ t, exec (.matmul sd sa sb) s = .next t ∧ sentinelIn t sd ∧ slotFrame sd s t ∧
        t.status = { s.status with busy := false, done := true, err := true, ecode := .dim }) ∧
    (rows s sa ≠ 0 → rows s sb ≠ 0 → cols s sa = rows s sb →
      rows s sa ≤ s.params.nmax ∧ cols s sa ≤ s.params.nmax ∧ cols s sb ≤ s.params.cmax ∧
      ∃ t, exec (.matmul sd sa sb) s = .next t ∧ slotFrame sd s t ∧
        rows t sd = rows s sa ∧ cols t sd = cols s sb ∧
        (∀ i j, i < s.params.nmax → j < s.params.cmax →
          (elemByte t sd i j).toNat =
            if i < rows s sa ∧ j < cols s sb then
              (∑ x ∈ Finset.range (cols s sa), (elemByte s sa i x).toNat * (elemByte s sb x j).toNat) % 29
            else 0) ∧
        (∀ i j, i < rows s sa → j < cols s sb →
          ∑ x ∈ Finset.range (cols s sa), (elemByte s sa i x).toNat * (elemByte s sb x j).toNat ≤ s.params.nmax * 784) ∧
        t.status = { s.status with busy := false, done := true, ecode := .ok })

/-- R151. -/
def Obligations.MatinvChecksItsOperand : Prop :=
  ∀ (s : State) (sd sa : SlotNo),
    ((rows s sa = 0 ∨ rows s sa ≠ cols s sa) →
      ∃ t, exec (.matinv sd sa) s = .next t ∧ sentinelIn t sd ∧ slotFrame sd s t ∧
        t.status = { s.status with busy := false, done := true, err := true, ecode := .dim }) ∧
    (Inv s → rows s sa ≠ 0 → rows s sa = cols s sa →
      1 ≤ rows s sa ∧ rows s sa ≤ s.params.nmax ∧
      ∃ t, exec (.matinv sd sa) s = .next t ∧ (t.status.ecode = .ok ∨ t.status.ecode = .singular))

/-- R159. -/
def Obligations.MatinvFailureLeavesTheSentinel : Prop :=
  ∀ (s t : State) (sd sa : SlotNo), exec (.matinv sd sa) s = .next t → t.status.ecode ≠ .ok →
    (t.status.ecode = .dim ∨ t.status.ecode = .singular) ∧ sentinelIn t sd ∧ slotFrame sd s t ∧
      t.status = { s.status with busy := false, done := true, err := true, ecode := t.status.ecode }

/-- 41_matrix_inverter.md R158, R162: on OK, in either mode, SD holds the n×n inverse, its other elements are 0 and nothing else
has changed. -/
def Obligations.MatinvOkGivesTheInverse : Prop :=
  ∀ (s t : State) (sd sa : SlotNo), Inv s → exec (.matinv sd sa) s = .next t → t.status.ecode = .ok →
    rows t sd = rows s sa ∧ cols t sd = rows s sa ∧
    squareValue s sa (rows s sa) * squareValue t sd (rows s sa) = 1 ∧
    squareValue t sd (rows s sa) * squareValue s sa (rows s sa) = 1 ∧
    (∀ i j, i < s.params.nmax → j < s.params.cmax → ¬(i < rows s sa ∧ j < rows s sa) → elemByte t sd i j = 0) ∧
    slotFrame sd s t ∧ t.status = { s.status with busy := false, done := true, ecode := .ok }

/-- 41_matrix_inverter.md R162: with row swapping MATINV decides invertibility: SINGULAR exactly when the determinant is 0 mod 29,
and otherwise OK with the inverse in SD. -/
def Obligations.MatinvWithSwappingDecidesInvertibility : Prop :=
  ∀ (s : State) (sd sa : SlotNo), Inv s → s.lpivot = true → rows s sa ≠ 0 → rows s sa = cols s sa →
    ∃ t, exec (.matinv sd sa) s = .next t ∧ slotFrame sd s t ∧
      ((squareValue s sa (rows s sa)).det = 0 →
        sentinelIn t sd ∧
          t.status = { s.status with busy := false, done := true, err := true, ecode := .singular }) ∧
      ((squareValue s sa (rows s sa)).det ≠ 0 →
        rows t sd = rows s sa ∧ cols t sd = rows s sa ∧
          squareValue t sd (rows s sa) = (squareValue s sa (rows s sa))⁻¹ ∧
          (∀ i j, i < s.params.nmax → j < s.params.cmax → ¬(i < rows s sa ∧ j < rows s sa) → elemByte t sd i j = 0) ∧
          t.status = { s.status with busy := false, done := true, ecode := .ok })

/-- 41_matrix_inverter.md R162: SINGULAR whenever the determinant is 0, in both modes (DOC0 §8 "Singular detection"). -/
def Obligations.MatinvReportsEverySingularMatrix : Prop :=
  ∀ (s : State) (sd sa : SlotNo), Inv s → rows s sa ≠ 0 → rows s sa = cols s sa →
    (squareValue s sa (rows s sa)).det = 0 →
    ∃ t, exec (.matinv sd sa) s = .next t ∧ sentinelIn t sd ∧ slotFrame sd s t ∧
      t.status = { s.status with busy := false, done := true, err := true, ecode := .singular }

/-- 41_matrix_inverter.md R162: if PIVOT = 0 gives OK, PIVOT = 1 gives OK with the same result. -/
def Obligations.MatinvPoliciesAgreeOnSuccess : Prop :=
  ∀ (s t : State) (sd sa : SlotNo), s.lpivot = false → exec (.matinv sd sa) s = .next t → t.status.ecode = .ok →
    exec (.matinv sd sa) { s with lpivot := true } = .next { t with lpivot := true }

/-- 41_matrix_inverter.md R162: for n = 2 and an invertible source, PIVOT = 0 gives SINGULAR exactly when a = 0. -/
def Obligations.MatinvWithoutSwappingFailsOnZeroCorner : Prop :=
  ∀ (s : State) (sd sa : SlotNo), Inv s → s.lpivot = false → rows s sa = 2 → cols s sa = 2 →
    (squareValue s sa 2).det ≠ 0 →
    ∃ t, exec (.matinv sd sa) s = .next t ∧
      (t.status.ecode = .singular ↔ elemByte s sa 0 0 = 0) ∧ (t.status.ecode = .ok ↔ elemByte s sa 0 0 ≠ 0)

/-- 42_matrix_multiply.md R176 with R162: encrypting a block matrix with a key, inverting the key and multiplying by the inverse
gives the block matrix back. -/
def Obligations.DecryptingAnEncryptedBlockRestoresIt : Prop :=
  ∀ (s t u w : State) (sE sP sC sD sR : SlotNo), Inv s →
    rows s sE ≠ 0 → cols s sE = rows s sE → rows s sP = rows s sE → sC ≠ sE → sD ≠ sC →
    exec (.matmul sC sE sP) s = .next t → exec (.matinv sD sE) t = .next u → u.status.ecode = .ok →
    exec (.matmul sR sD sC) u = .next w →
      w.status.ecode = .ok ∧ rows w sR = rows s sP ∧ cols w sR = cols s sP ∧ value w sR = value s sP

/-- 10_state.md R47, R48: what the two write-back primitives leave. -/
def Obligations.SlotWriteBackFillsOneSlot : Prop :=
  ∀ (s : State) (sl : SlotNo), s.params.Legal →
    (∀ (m k : Nat) (X : Mat), 1 ≤ m → m ≤ s.params.nmax → 1 ≤ k → k ≤ s.params.cmax →
      let t := writeResult sl m k X s
      rows t sl = m ∧ cols t sl = k ∧ slotFrame sl s t ∧ t.status = s.status ∧
        ∀ i j, i < s.params.nmax → j < s.params.cmax →
          (elemByte t sl i j).toNat = if i < m ∧ j < k then (entry X i j).val else 0) ∧
    sentinelIn (setSentinel sl s) sl ∧ slotFrame sl s (setSentinel sl s) ∧ (setSentinel sl s).status = s.status

/-! ### The register space -/

/-- R72. -/
def Obligations.ElementAddressesAreColumnMajor : Prop :=
  ∀ p : Params, p.Legal →
    (∀ (sl : SlotNo) (i j : Nat), i < p.nmax → j < p.cmax →
      elemAddr p sl i j = 0x1000 * (sl.val + 1) + 4 * (j * p.nmax + i) ∧
      elemAddr p sl i j < 0x1000 * (sl.val + 1) + 0x1000 ∧
      (elemOffset p sl i j).toNat = elemAddr p sl i j ∧ target p (elemOffset p sl i j) = .elem sl i j) ∧
    (∀ (off : Offset) (sl : SlotNo) (i j : Nat), off.toNat % 4 = 0 → target p off = .elem sl i j →
      i < p.nmax ∧ j < p.cmax ∧ off.toNat = elemAddr p sl i j) ∧
    (∀ (sl : SlotNo) (q : Nat), q < p.nmax * p.cmax →
      elemAddr p sl (q % p.nmax) (q / p.nmax) = 0x1000 * (sl.val + 1) + 4 * q)

/-- R73, R74. -/
def Obligations.EmptyWordsReadZeroAndIgnoreWrites : Prop :=
  ∀ (s : State) (off : Offset) (v : Word), off.toNat % 4 = 0 →
    (off.toNat = 0x01C ∨ (0x030 ≤ off.toNat ∧ off.toNat < 0x1000) ∨
      (0x1000 ≤ off.toNat ∧ off.toNat < 0x5000 ∧ s.params.nmax * s.params.cmax ≤ off.toNat % 0x1000 / 4) ∨
      0x5000 ≤ off.toNat) →
    hostRead off s = .next { s with reads := s.reads ++ [0] } ∧ hostWrite off v s = .next s

/-- R75. -/
def Obligations.HostReadsReturnTheRegisters : Prop :=
  ∀ s : State, s.params.Legal →
    let returns := fun (off : Offset) (v : Word) => hostRead off s = .next { s with reads := s.reads ++ [v] }
    let blocked := fun (off : Offset) => hostRead off s = .next { s with
      status := { s.status with busyacc := true }
      reads := s.reads ++ [0] }
    returns 0x000 (BitVec.ofNat 32 (0x01 * 2 ^ 24 + s.params.cmax * 2 ^ 16 + s.params.nmax * 2 ^ 8 + 29)) ∧
    returns 0x004 (BitVec.ofNat 32 (s.ctrl.pivot.toNat + 2 * s.ctrl.irqEn.toNat)) ∧
    returns 0x008 (BitVec.ofNat 32 (s.status.busy.toNat + 2 * s.status.done.toNat + 4 * s.status.err.toNat +
      8 * s.status.busyacc.toNat + 256 * s.status.ecode.bits.toNat)) ∧
    returns 0x00C s.cmd ∧ returns 0x010 s.opa ∧ returns 0x014 s.opb ∧
    (s.status.busy = false → returns 0x018 (BitVec.ofNat 32 s.res.val)) ∧
    (s.status.busy = true → blocked 0x018) ∧
    (∀ sl : SlotNo, s.status.busy = false →
      returns (dimOffset sl) (BitVec.ofNat 32 (rows s sl + 256 * cols s sl))) ∧
    (∀ sl : SlotNo, s.status.busy = true → blocked (dimOffset sl)) ∧
    (∀ (sl : SlotNo) (i j : Nat), i < s.params.nmax → j < s.params.cmax → s.status.busy = false →
      returns (elemOffset s.params sl i j) (BitVec.ofNat 32 (elemByte s sl i j).toNat)) ∧
    (∀ (sl : SlotNo) (i j : Nat), i < s.params.nmax → j < s.params.cmax → s.status.busy = true →
      blocked (elemOffset s.params sl i j)) ∧
    (∀ off : Offset, off.toNat % 4 = 0 → target s.params off = .empty → returns off 0)

/-- R76. -/
def Obligations.HostWritesToRegisters : Prop :=
  ∀ (s : State) (v : Word),
    let r := v.toNat % 256
    let c := v.toNat / 256 % 256
    let blocked := fun (off : Offset) => hostWrite off v s = .next { s with status := { s.status with busyacc := true } }
    hostWrite 0x004 v s = .next { s with ctrl := { pivot := v.getLsbD 0, irqEn := v.getLsbD 1 } } ∧
    hostWrite 0x008 v s = .next { s with
      status := { s.status with
        done := s.status.done && !v.getLsbD 1
        err := s.status.err && !v.getLsbD 2
        busyacc := s.status.busyacc && !v.getLsbD 3 } } ∧
    hostWrite 0x000 v s = .next s ∧ hostWrite 0x018 v s = .next s ∧
    (∀ off : Offset, off.toNat % 4 = 0 → target s.params off = .empty → hostWrite off v s = .next s) ∧
    (s.status.busy = false →
      hostWrite 0x00C v s = .next { s with
        cmd := v
        lpivot := s.ctrl.pivot
        status := { s.status with done := false, busy := true } } ∧
      hostWrite 0x010 v s = .next { s with opa := v } ∧ hostWrite 0x014 v s = .next { s with opb := v } ∧
      (∀ sl : SlotNo, hostWrite (dimOffset sl) v s = .next { s with
        dim := s.dim.set sl.val
          (if (r = 0 ∧ c = 0) ∨ (1 ≤ r ∧ r ≤ s.params.nmax ∧ 1 ≤ c ∧ c ≤ s.params.cmax) then
            ⟨BitVec.ofNat 8 r, BitVec.ofNat 8 c⟩ else ⟨0, 0⟩) }) ∧
      (s.params.Legal → ∀ (sl : SlotNo) (i j : Nat), i < s.params.nmax → j < s.params.cmax →
        hostWrite (elemOffset s.params sl i j) v s = .next { s with
          mem := Memory.write s.mem (elemAddr s.params sl i j) (BitVec.ofNat 8 (v.toInt % 29).toNat) })) ∧
    (s.status.busy = true →
      blocked 0x00C ∧ blocked 0x010 ∧ blocked 0x014 ∧ (∀ sl : SlotNo, blocked (dimOffset sl)) ∧
      (s.params.Legal → ∀ (sl : SlotNo) (i j : Nat), i < s.params.nmax → j < s.params.cmax →
        blocked (elemOffset s.params sl i j)))

/-- R40. -/
def Obligations.DimWriteSetsALegalShape : Prop :=
  ∀ (s : State) (sl : SlotNo) (v : Word),
    let r := v.toNat % 256
    let c := v.toNat / 256 % 256
    (s.status.busy = true → hostWrite (dimOffset sl) v s = .next { s with status := { s.status with busyacc := true } }) ∧
    (s.status.busy = false → ∃ t, hostWrite (dimOffset sl) v s = .next t ∧
      (((r = 0 ∧ c = 0) ∨ (1 ≤ r ∧ r ≤ s.params.nmax ∧ 1 ≤ c ∧ c ≤ s.params.cmax)) →
        rows t sl = r ∧ cols t sl = c) ∧
      (¬((r = 0 ∧ c = 0) ∨ (1 ≤ r ∧ r ≤ s.params.nmax ∧ 1 ≤ c ∧ c ≤ s.params.cmax)) →
        rows t sl = 0 ∧ cols t sl = 0) ∧
      (∀ sl', sl' ≠ sl → t.dim.get sl' = s.dim.get sl') ∧ t = { s with dim := t.dim })

/-- R43, R44. -/
def Obligations.ElementsAreStoredNormalized : Prop :=
  ∀ (s : State) (sl : SlotNo) (i j : Nat) (v : Word), s.params.Legal → i < s.params.nmax → j < s.params.cmax →
    (s.status.busy = false → ∃ t, hostWrite (elemOffset s.params sl i j) v s = .next t ∧
      ((elemByte t sl i j).toNat : Int) = v.toInt % 29 ∧ t = { s with mem := t.mem } ∧
      (∀ a, a ≠ elemAddr s.params sl i j → Memory.read t.mem a = Memory.read s.mem a) ∧
      hostRead (elemOffset s.params sl i j) t =
        .next { t with reads := t.reads ++ [BitVec.ofNat 32 (v.toInt % 29).toNat] }) ∧
    (s.status.busy = false → hostRead (elemOffset s.params sl i j) s =
      .next { s with reads := s.reads ++ [(elemByte s sl i j).setWidth 32] }) ∧
    (s.status.busy = true →
      hostWrite (elemOffset s.params sl i j) v s = .next { s with status := { s.status with busyacc := true } } ∧
      hostRead (elemOffset s.params sl i j) s = .next { s with
        status := { s.status with busyacc := true }
        reads := s.reads ++ [0] })

/-- R77. -/
def Obligations.OnlyAlignedWordAccessesAreDefined : Prop :=
  ∀ s : State,
    ((∃ f, step s = .fault f) ↔
      ∃ (size : Nat) (off : Offset) (rest : List Event), ¬(size = 4 ∧ off.toNat % 4 = 0) ∧
        (s.inbox = .host (.read size off) :: rest ∨ ∃ v, s.inbox = .host (.write size off v) :: rest)) ∧
    (∀ f, step s = .fault f → f = .busError) ∧ ∀ r, step s ≠ .refused r

/-- 20_memory.md R79: every write of an aligned word but a write of CMD is idempotent; a read that is not blocked changes nothing
but the record of what the Host has read, and a blocked read only sets BUSYACC, so that a read done twice leaves what a read done
once leaves and returns the same value again. -/
def Obligations.AccessesOtherThanCmdAreIdempotent : Prop :=
  ∀ (s : State) (off : Offset) (v : Word), off.toNat % 4 = 0 →
    (off ≠ 0x00C → ∀ t, hostWrite off v s = .next t → hostWrite off v t = .next t) ∧
    ((target s.params off).readBlocks = false ∨ s.status.busy = false → ∃ w,
      hostRead off s = .next { s with reads := s.reads ++ [w] } ∧
      hostRead off { s with reads := s.reads ++ [w] } = .next { s with reads := s.reads ++ [w] ++ [w] }) ∧
    ((target s.params off).readBlocks = true → s.status.busy = true → ∃ t,
      hostRead off s = .next t ∧
      t = { s with status := { s.status with busyacc := true }, reads := s.reads ++ [0] } ∧
      hostRead off t = .next { t with reads := t.reads ++ [0] })

/-! ### Commands, status and interrupt -/

/-- R190. -/
def Obligations.CmdWriteAcceptsWhenIdle : Prop :=
  ∀ (s : State) (v : Word),
    (s.status.busy = false → hostWrite 0x00C v s = .next { s with
      cmd := v
      lpivot := s.ctrl.pivot
      status := { s.status with done := false, busy := true } }) ∧
    (s.status.busy = true → hostWrite 0x00C v s = .next { s with status := { s.status with busyacc := true } })

/-- 60_exceptions.md R190, R191: a command written to CMD while the block is idle completes on the operands it was accepted with,
under the policy CTRL.PIVOT had then. -/
def Obligations.AcceptedCommandRunsOnItsOperands : Prop :=
  ∀ (s : State) (v : Word) (i : Instr), s.status.busy = false → decode v = .ok i →
    ∃ t, hostWrite 0x00C v s = .next t ∧
      engineStep t = exec i { s with
        cmd := v
        lpivot := s.ctrl.pivot
        status := { s.status with done := false, busy := true } } ∧
      step (s.withFetchWord 32 v.toNat) = engineStep t

/-- R35: what a read of STATUS returns, and the columns "set by" and "cleared by" over every step of the machine. -/
def Obligations.StatusBitsChangeOnlyAsTabled : Prop :=
  (∀ s : State, hostRead 0x008 s = .next { s with
    reads := s.reads ++ [BitVec.ofNat 32 (s.status.busy.toNat + 2 * s.status.done.toNat + 4 * s.status.err.toNat +
      8 * s.status.busyacc.toNat + 256 * s.status.ecode.bits.toNat)] }) ∧
  ∀ s t : State, step s = .next t →
    let accepts := s.status.busy = false ∧ ∃ v, nextIsWrite s 0x00C v
    let completes := nextIsEngine s = true ∧ s.status.busy = true
    let clears := fun (k : Nat) => ∃ v, nextIsWrite s 0x008 v ∧ v.getLsbD k = true
    let resets := nextIsReset s = true
    (accepts → t.status.busy = true ∧ t.status.done = false) ∧
    (completes → t.status.busy = false ∧ t.status.done = true ∧ (t.status.ecode ≠ .ok → t.status.err = true) ∧
      ((∃ e, decode s.cmd = .error e) → t.status.ecode = .illegal)) ∧
    (clears 1 → t.status.done = false) ∧ (clears 2 → t.status.err = false) ∧ (clears 3 → t.status.busyacc = false) ∧
    (s.status.busy = false → t.status.busy = true → accepts) ∧
    (s.status.busy = true → t.status.busy = false → completes ∨ resets) ∧
    (s.status.done = false → t.status.done = true → completes) ∧
    (s.status.done = true → t.status.done = false → clears 1 ∨ accepts ∨ resets) ∧
    (s.status.err = false → t.status.err = true → completes ∧ t.status.ecode ≠ .ok) ∧
    (s.status.err = true → t.status.err = false → clears 2 ∨ resets) ∧
    (s.status.busyacc = false → t.status.busyacc = true → nextIsBlocked s = true) ∧
    (nextIsBlocked s = true → t.status = { s.status with busyacc := true }) ∧
    (s.status.busyacc = true → t.status.busyacc = false → clears 3 ∨ resets) ∧
    (t.status.ecode ≠ s.status.ecode → completes ∨ (resets ∧ t.status.ecode = .ok)) ∧
    (resets → t.status = { busy := false, done := false, err := false, busyacc := false, ecode := .ok })

/-- R199. -/
def Obligations.BlockedAccessesOnlySetBusyacc : Prop :=
  ∀ (s : State) (off : Offset) (v : Word), s.status.busy = true → off.toNat % 4 = 0 →
    ((target s.params off = .res ∨ (∃ sl, target s.params off = .dim sl) ∨ ∃ sl i j, target s.params off = .elem sl i j) →
      hostRead off s = .next { s with
        status := { s.status with busyacc := true }
        reads := s.reads ++ [0] }) ∧
    ((target s.params off = .cmd ∨ target s.params off = .opa ∨ target s.params off = .opb ∨
        (∃ sl, target s.params off = .dim sl) ∨ ∃ sl i j, target s.params off = .elem sl i j) →
      hostWrite off v s = .next { s with status := { s.status with busyacc := true } })

/-- R200. -/
def Obligations.IrqIsTheEnabledDoneLevel : Prop :=
  ∀ s t : State, step s = .next t →
    irq s = (s.ctrl.irqEn && s.status.done) ∧
    (irq s = false → irq t = true →
      (nextIsEngine s = true ∧ s.status.busy = true ∧ s.ctrl.irqEn = true) ∨
        (s.status.done = true ∧ ∃ v, nextIsWrite s 0x004 v ∧ v.getLsbD 1 = true)) ∧
    (nextIsEngine s = true → s.status.busy = true → s.ctrl.irqEn = true → irq t = true) ∧
    (s.status.done = true → ∀ v, nextIsWrite s 0x004 v → irq t = v.getLsbD 1) ∧
    (irq s = true → (irq t = false ↔
      (∃ v, nextIsWrite s 0x008 v ∧ v.getLsbD 1 = true) ∨
        (s.status.busy = false ∧ ∃ v, nextIsWrite s 0x00C v) ∨
        (∃ v, nextIsWrite s 0x004 v ∧ v.getLsbD 1 = false) ∨ nextIsReset s = true))

/-- 10_state.md R45 and 70_reset_and_hazards.md R226: LPIVOT takes CTRL.PIVOT at an acceptance and nowhere else. -/
def Obligations.LpivotIsLatchedAtAcceptanceOnly : Prop :=
  ∀ s t : State, step s = .next t →
    ((s.status.busy = false ∧ ∃ v, nextIsWrite s 0x00C v) → t.lpivot = s.ctrl.pivot) ∧
    (nextIsReset s = true → t.lpivot = true) ∧
    (¬(s.status.busy = false ∧ ∃ v, nextIsWrite s 0x00C v) → nextIsReset s = false → t.lpivot = s.lpivot)

/-- 10_state.md R38: only a scalar command writes RES; a matrix command and an illegal word do not. -/
def Obligations.ResIsWrittenByScalarCommandsOnly : Prop :=
  ∀ s t : State, step s = .next t → t.res ≠ s.res →
    (nextIsEngine s = true ∧ s.status.busy = true ∧
      ∃ i ∈ [Instr.mred, .madd, .msub, .mmul, .minv], decode s.cmd = .ok i) ∨
    (nextIsReset s = true ∧ t.res = 0)

/-- 10_state.md R45, 20_memory.md R76, R82: while a command is pending no Host access changes an operand, the command or the
latched policy. -/
def Obligations.OperandsAreFrozenWhileBusy : Prop :=
  ∀ s t : State, s.status.busy = true → nextIsEngine s = false → nextIsReset s = false → step s = .next t →
    t.status.busy = true ∧ t.params = s.params ∧ t.cmd = s.cmd ∧ t.opa = s.opa ∧ t.opb = s.opb ∧ t.res = s.res ∧
      t.dim = s.dim ∧ t.mem = s.mem ∧ t.lpivot = s.lpivot ∧ t.status.ecode = s.status.ecode ∧
      (t.status.err = true → s.status.err = true)

/-- 20_memory.md R80 and 70_reset_and_hazards.md R228: whatever Host accesses fall between an acceptance and its completion, the
command's result is the one an immediate completion gives. -/
def Obligations.ResultsDoNotDependOnLatency : Prop :=
  ∀ (s : State) (accesses : List Access) (rest : List Event), s.status.busy = true →
    s.inbox = accesses.map Event.host ++ .engine :: rest →
    (∀ a ∈ accesses, a = .poll ∨ ∃ off : Offset, off.toNat % 4 = 0 ∧ (a = .read 4 off ∨ ∃ v, a = .write 4 off v)) →
    ∃ t u : State,
      Host.Core.run Sys2Proof.core (accesses.length + 1) s = .next t ∧
      step { s with inbox := .engine :: rest } = .next u ∧
      t.inbox = rest ∧ t.cmd = u.cmd ∧ t.opa = u.opa ∧ t.opb = u.opb ∧ t.res = u.res ∧ t.dim = u.dim ∧ t.mem = u.mem ∧
      t.lpivot = u.lpivot ∧ t.status.ecode = u.status.ecode ∧ t.status.busy = false ∧ t.status.done = true

/-! ### Reset, identification and the invariant -/

/-- R220, R221. -/
def Obligations.ResetGivesEveryResetValue : Prop :=
  ∀ (s : State) (rest : List Event), s.inbox = .reset :: rest → ∃ t, step s = .next t ∧
    t.ctrl.toWord = 0x00000001 ∧ t.status.toWord = 0 ∧ t.cmd = 0 ∧ t.opa = 0 ∧ t.opb = 0 ∧ t.res = 0 ∧
    (∀ sl : SlotNo, rows t sl = 0 ∧ cols t sl = 0) ∧ (∀ a, Memory.read t.mem a = 0) ∧ t.lpivot = true ∧
    t.params = s.params ∧ irq t = false ∧ t.inbox = rest ∧ t.reads = s.reads ∧ t.busyPolls = s.busyPolls ∧
    t = { State.reset with params := s.params, inbox := rest, reads := s.reads, busyPolls := s.busyPolls }

/-- R31. -/
def Obligations.IdIsAConstant : Prop :=
  (∀ s : State, s.params.Legal →
    ∃ w : Word, hostRead 0x000 s = .next { s with reads := s.reads ++ [w] } ∧
      w.toNat % 256 = 29 ∧ w.toNat / 2 ^ 8 % 256 = s.params.nmax ∧ w.toNat / 2 ^ 16 % 256 = s.params.cmax ∧
      w.toNat / 2 ^ 24 = 0x01) ∧
  (∀ (s : State) (v : Word), hostWrite 0x000 v s = .next s) ∧
  ∀ s t : State, step s = .next t → t.params = s.params

/-- The invariant that every step keeps: legal parameters (R8), canonical storage that holds residues in element words and nothing
else (R42), legal shapes (R39), DONE = 0 while BUSY = 1 (R190, R191). -/
def Obligations.EveryStepKeepsTheInvariant : Prop :=
  ∀ s t : State, Inv s → step s = .next t → Inv t

/-- The invariant holds after reset (R220). -/
def Obligations.ResetStateMeetsTheInvariant : Prop := Inv State.reset

/-! ### Added at the first review -/

/-- 41_matrix_inverter.md R152, R153, R162: without row swapping MATINV succeeds, with the inverse in SD, exactly when no working
pivot becomes 0, that is when every leading principal minor of the source is nonzero mod 29, and ends with SINGULAR otherwise.
`squareValue s sa k` is the leading k×k block. That the minors decide whether a working pivot is 0 is an inference from R152 and
R153. -/
def Obligations.MatinvWithoutSwappingNeedsLeadingMinors : Prop :=
  ∀ (s : State) (sd sa : SlotNo), Inv s → s.lpivot = false → rows s sa ≠ 0 → rows s sa = cols s sa →
    ∃ t, exec (.matinv sd sa) s = .next t ∧ slotFrame sd s t ∧
      ((∀ k, 1 ≤ k → k ≤ rows s sa → (squareValue s sa k).det ≠ 0) →
        rows t sd = rows s sa ∧ cols t sd = rows s sa ∧
          squareValue t sd (rows s sa) = (squareValue s sa (rows s sa))⁻¹ ∧
          (∀ i j, i < s.params.nmax → j < s.params.cmax → ¬(i < rows s sa ∧ j < rows s sa) → elemByte t sd i j = 0) ∧
          t.status = { s.status with busy := false, done := true, ecode := .ok }) ∧
      ((∃ k, 1 ≤ k ∧ k ≤ rows s sa ∧ (squareValue s sa k).det = 0) →
        sentinelIn t sd ∧
          t.status = { s.status with busy := false, done := true, err := true, ecode := .singular })

/-- 70_reset_and_hazards.md R230: a run is over exactly when the schedule lists no Host access and no command is pending; then no
step but a reset changes its result; and a state whose next access faults (R77) is not over. The schedule is log entry 2. -/
def Obligations.AnOverRunKeepsItsResult : Prop :=
  ∀ s : State,
    (runOver s = true ↔ (∀ a, Event.host a ∉ s.inbox) ∧ s.status.busy = false) ∧
    (runOver s = true → nextIsReset s = false →
      ∃ t, step s = .next t ∧ t = { s with inbox := s.inbox.tail } ∧ runOver t = true ∧ runResult t = runResult s) ∧
    ((∃ f, step s = .fault f) → runOver s = false)

/-- 30_encoding.md R110 and 70_reset_and_hazards.md R230: a poll of a WAIT loop is a read of STATUS that changes nothing but the
record of what the Host has read, and the result of a run does not tell how many polls a WAIT made. The schedule is log entry 2
and the record of the polls log entry 15. -/
def Obligations.WaitPollsDoNotShowInTheResult : Prop :=
  ∀ s : State,
    (s.status.busy = true → hostPoll s = .next { s with
      busyPolls := s.busyPolls ++ [(s.reads.length, s.status.toWord)] }) ∧
    (s.status.busy = false → hostPoll s = .next { s with reads := s.reads ++ [s.status.toWord] }) ∧
    (∀ (n : Nat) (rest : List Event), s.status.busy = true → s.inbox = HostProgram.wait n ++ rest → ∃ t u : State,
      Host.Core.run Sys2Proof.core (n + 2) s = .next t ∧
      Host.Core.run Sys2Proof.core 2 { s with inbox := HostProgram.wait 0 ++ rest } = .next u ∧
      runResult t = runResult u ∧ t.inbox = rest ∧ u.inbox = rest ∧ t.status.busy = false ∧
      t.reads = s.reads ++ [t.status.toWord])
end

