-- ==== Sys2Proof/Laws/Arith.lean ====
section
/-! SUPPORT. The laws of the residue primitives and of the residue matrices: what mod29, the table and each matrix constructor
compute, and their images in Z/29Z. -/

namespace Sys2Proof.Machine

theorem mod29_val (a : Int) : ((mod29 a).val : Int) = a % 29 := by
  simp only [mod29]
  omega

theorem mod29_val_toNat (a : Int) : (mod29 a).val = (a % 29).toNat := rfl

theorem mod29_of_residue (r : Residue) : mod29 (r.val : Int) = r := by
  apply Fin.ext
  have := r.isLt
  simp only [mod29]
  omega

@[simp] theorem residueByte_toNat (r : Residue) : (residueByte r).toNat = r.val := by
  have := r.isLt
  simp only [residueByte, BitVec.toNat_ofNat]
  omega

/-- A stored residue is read back as it was stored. -/
@[simp] theorem byteResidue_residueByte (r : Residue) : byteResidue (residueByte r) = r := by
  simp [byteResidue, mod29_of_residue]

theorem residueByte_zero : residueByte 0 = blankByte := rfl

theorem byteResidue_val_of_lt (b : Byte) (h : b.toNat < 29) : (byteResidue b).val = b.toNat := by
  simp only [byteResidue, mod29]
  omega

@[simp] theorem zext32_toNat (r : Residue) : (zext32 r).toNat = r.val := by
  have := r.isLt
  simp only [zext32, BitVec.toNat_ofNat]
  omega

/-- A residue in a 32-bit word is that number, read as a signed integer. -/
@[simp] theorem sint_zext32 (r : Residue) : sint (zext32 r) = r.val := by
  have := r.isLt
  unfold sint
  rw [BitVec.toInt_eq_toNat_of_lt (by rw [zext32_toNat]; omega), zext32_toNat]

@[simp] theorem normalize29_sint_zext32 (r : Residue) : normalize29 (sint (zext32 r)) = r := by
  rw [sint_zext32, normalize29, mod29_of_residue]

/-- Every entry of the table is an inverse, and only 0 has none (R131). -/
theorem inv29_spec (r : Residue) :
    (r = 0 ∧ inv29 r = none) ∨ (r ≠ 0 ∧ ∃ x, inv29 r = some x ∧ mul29 r x = 1) := by
  revert r
  decide

theorem inv29_none_iff (r : Residue) : inv29 r = none ↔ r = 0 := by
  rcases inv29_spec r with ⟨rfl, h'⟩ | ⟨h, x, h', -⟩
  · simp [h']
  · simp [h, h']

theorem mul29_of_inv29 (r x : Residue) (h : inv29 r = some x) : mul29 r x = 1 := by
  rcases inv29_spec r with ⟨-, h'⟩ | ⟨-, y, h', hy⟩
  · simp [h'] at h
  · rw [h] at h'
    cases h'
    exact hy

/-- The image of mod29 in Z/29Z. -/
@[simp] theorem cast_mod29 (a : Int) : ((mod29 a).val : ZMod 29) = (a : ZMod 29) := by
  have h : (((mod29 a).val : Int) : ZMod 29) = ((a % 29 : Int) : ZMod 29) := by rw [mod29_val]
  have h29 : ((29 : ℕ) : Int) = 29 := rfl
  rw [← h29, ZMod.intCast_mod] at h
  simpa using h

@[simp] theorem cast_add29 (x y : Residue) : ((add29 x y).val : ZMod 29) = x.val + y.val := by
  simp [add29]

@[simp] theorem cast_sub29 (x y : Residue) : ((sub29 x y).val : ZMod 29) = x.val - y.val := by
  simp [sub29]

@[simp] theorem cast_mul29 (x y : Residue) : ((mul29 x y).val : ZMod 29) = x.val * y.val := by
  simp [mul29]

/-- Residues with the same image in Z/29Z are equal. -/
theorem cast_residue_inj (x y : Residue) : ((x.val : ℕ) : ZMod 29) = (y.val : ℕ) ↔ x = y := by
  rw [ZMod.natCast_eq_natCast_iff']
  have hx := x.isLt
  have hy := y.isLt
  rw [Nat.mod_eq_of_lt hx, Nat.mod_eq_of_lt hy, Fin.ext_iff]

theorem cast_residue_eq_zero (x : Residue) : ((x.val : ℕ) : ZMod 29) = 0 ↔ x = 0 := by
  have h := cast_residue_inj x 0
  simpa using h

theorem cast_inv29 (r x : Residue) (h : inv29 r = some x) : ((r.val : ℕ) : ZMod 29) * (x.val : ℕ) = 1 := by
  have h' := congrArg (fun y : Residue => ((y.val : ℕ) : ZMod 29)) (mul29_of_inv29 r x h)
  simpa using h'

/-- The entries of a matrix built by matOf, inside its shape. -/
theorem entry_matOf (m k : Nat) (f : Nat → Nat → Residue) {i j : Nat} (hi : i < m) (hj : j < k) :
    entry (matOf m k f) i j = f i j := by
  simp [entry, matOf, hi, hj]

/-- Outside its shape a matrix built by matOf reads as 0. -/
theorem entry_matOf_outside (m k : Nat) (f : Nat → Nat → Residue) {i j : Nat} (h : ¬(i < m ∧ j < k)) :
    entry (matOf m k f) i j = 0 := by
  by_cases hi : i < m
  · have hj : ¬ j < k := fun hj => h ⟨hi, hj⟩
    simp [entry, matOf, hi, hj]
  · simp [entry, matOf, hi]

theorem matOf_congr (m k : Nat) (f g : Nat → Nat → Residue) (h : ∀ i j, i < m → j < k → f i j = g i j) :
    matOf m k f = matOf m k g := by
  unfold matOf
  refine List.map_congr_left fun i hi => List.map_congr_left fun j hj => ?_
  exact h i j (by simpa using hi) (by simpa using hj)

theorem matOf_inj (m k : Nat) (f g : Nat → Nat → Residue) :
    matOf m k f = matOf m k g ↔ ∀ i j, i < m → j < k → f i j = g i j := by
  refine ⟨fun h i j hi hj => ?_, matOf_congr m k f g⟩
  rw [← entry_matOf m k f hi hj, h, entry_matOf m k g hi hj]

theorem entry_identity (n : Nat) {i j : Nat} (hi : i < n) (hj : j < n) :
    entry (identity n) i j = if i = j then 1 else 0 := entry_matOf n n _ hi hj

theorem toMatrix_identity (n : Nat) : toMatrix n n (identity n) = 1 := by
  ext i j
  rw [toMatrix, entry_identity n i.isLt j.isLt, Matrix.one_apply]
  by_cases h : i = j
  · simp [h]
  · simp [h, Fin.val_inj]

end Sys2Proof.Machine
end

