-- ==== Sys2Proof/Laws/PerInstr.lean ====
section
/-! SUPPORT. Statements about every instruction as syntax, one lemma per constructor: family WordShape says that the word of an
instruction has RSV = 0 and that its slot fields are read back as the slots the instruction names (30_encoding.md R101, R102). -/

namespace Sys2Proof.Laws.WordShape

/-- The slots an instruction names, in the order (SA, SB, SD); an unused field holds slot number 0 (R102). -/
def slotsOf : Instr → SlotNo × SlotNo × SlotNo
  | .mred | .madd | .msub | .mmul | .minv => (0, 0, 0)
  | .matinv sd sa => (sa, 0, sd)
  | .matmul sd sa sb => (sa, sb, sd)

/-- RSV is 0, and the slot fields of the word are the instruction's slots. -/
def Statement (i : Instr) : Prop :=
  (fieldsOf (encode i)).rsv = 0 ∧
    (slotOf (fieldsOf (encode i)).sa, slotOf (fieldsOf (encode i)).sb, slotOf (fieldsOf (encode i)).sd) = slotsOf i

theorem mred : Statement .mred := by unfold Statement; decide
theorem madd : Statement .madd := by unfold Statement; decide
theorem msub : Statement .msub := by unfold Statement; decide
theorem mmul : Statement .mmul := by unfold Statement; decide
theorem minv : Statement .minv := by unfold Statement; decide
theorem matinv : ∀ sd sa, Statement (.matinv sd sa) := by unfold Statement; decide
theorem matmul : ∀ sd sa sb, Statement (.matmul sd sa sb) := by unfold Statement; decide

end Sys2Proof.Laws.WordShape
end

