-- ==== Sys2Proof/Laws/Encoding.lean ====
section
/-! SUPPORT. The fields of a command word as numbers (30_encoding.md R101), and that packing fields and taking a word apart are
inverse to each other. -/

namespace Sys2Proof

@[simp] theorem slotOf_slotBits : ∀ s : SlotNo, slotOf (slotBits s) = s := by decide

@[simp] theorem slotBits_slotOf : ∀ b : BitVec 2, slotBits (slotOf b) = b := by decide

theorem append_toNat {m n : Nat} (x : BitVec m) (y : BitVec n) : (x ++ y).toNat = x.toNat * 2 ^ n + y.toNat := by
  rw [BitVec.toNat_append, ← Nat.shiftLeft_add_eq_or_of_lt y.isLt, Nat.shiftLeft_eq]

theorem packFields_toNat (f : CmdFields) : (packFields f).toNat =
    f.rsv.toNat * 2 ^ 14 + f.sd.toNat * 2 ^ 12 + f.sb.toNat * 2 ^ 10 + f.sa.toNat * 2 ^ 8 + f.opc.toNat := by
  show (f.rsv ++ f.sd ++ f.sb ++ f.sa ++ f.opc).toNat = _
  simp only [append_toNat]
  omega

/-- The fields of a word as numbers (R101). -/
theorem fieldsOf_toNat (v : Word) :
    (fieldsOf v).opc.toNat = v.toNat % 256 ∧ (fieldsOf v).sa.toNat = v.toNat / 2 ^ 8 % 4 ∧
      (fieldsOf v).sb.toNat = v.toNat / 2 ^ 10 % 4 ∧ (fieldsOf v).sd.toNat = v.toNat / 2 ^ 12 % 4 ∧
      (fieldsOf v).rsv.toNat = v.toNat / 2 ^ 14 := by
  have h := v.isLt
  have e : ∀ k len, (v.extractLsb' k len).toNat = v.toNat / 2 ^ k % 2 ^ len := fun k len => by
    rw [BitVec.extractLsb'_toNat, Nat.shiftRight_eq_div_pow]
  unfold fieldsOf
  refine ⟨(e 0 8).trans (by omega), e 8 2, e 10 2, e 12 2, (e 14 18).trans (by omega)⟩

theorem packFields_fieldsOf (v : Word) : packFields (fieldsOf v) = v := by
  apply BitVec.eq_of_toNat_eq
  obtain ⟨h1, h2, h3, h4, h5⟩ := fieldsOf_toNat v
  rw [packFields_toNat, h1, h2, h3, h4, h5]
  omega

theorem fieldsOf_packFields (f : CmdFields) : fieldsOf (packFields f) = f := by
  obtain ⟨h1, h2, h3, h4, h5⟩ := fieldsOf_toNat (packFields f)
  rw [packFields_toNat] at h1 h2 h3 h4 h5
  obtain ⟨a, b, c, d, e⟩ := f
  have := a.isLt
  have := b.isLt
  have := c.isLt
  have := d.isLt
  have := e.isLt
  cases hf : fieldsOf (packFields ⟨a, b, c, d, e⟩)
  simp only [hf] at h1 h2 h3 h4 h5
  congr 1 <;> apply BitVec.eq_of_toNat_eq <;> omega

end Sys2Proof
end

