-- ==== Sys2Proof/Laws/Memory.lean ====
section
/-! SUPPORT. The laws of the storage: a read after a write, the frame of a write, the canonical form kept by every operation, and
that two canonical memories that read alike are equal. -/

namespace Sys2Proof.Machine

@[simp] theorem Memory.read_nil (a : Nat) : Memory.read [] a = blankByte := rfl

@[simp] theorem Memory.read_cons (c : Host.Cell) (m : Memory) (a : Nat) :
    Memory.read (c :: m) a = if c.1 = a then c.2 else Memory.read m a := rfl

theorem Memory.read_eq_blank_of_not_listed (m : Memory) (a : Nat) (h : ∀ c ∈ m, c.1 ≠ a) :
    Memory.read m a = blankByte := by
  induction m with
  | nil => rfl
  | cons c m ih => simp [h c (by simp), ih fun d hd => h d (by simp [hd])]

theorem Memory.read_filter_ne (m : Memory) {a a' : Nat} (h : a' ≠ a) :
    Memory.read (m.filter fun c => c.1 != a) a' = Memory.read m a' := by
  induction m with
  | nil => rfl
  | cons c m ih =>
    by_cases hc : c.1 = a
    · simp [hc, ih, Ne.symm h]
    · simp [hc, ih]

theorem Memory.read_filter_same (m : Memory) (a : Nat) :
    Memory.read (m.filter fun c => c.1 != a) a = blankByte :=
  Memory.read_eq_blank_of_not_listed _ _ fun c hc => by simpa using (List.mem_filter.mp hc).2

theorem Memory.read_insert_same (m : Memory) (a : Nat) (b : Byte) (h : ∀ c ∈ m, c.1 ≠ a) :
    Memory.read (Memory.insert m a b) a = b := by
  induction m with
  | nil => simp [Memory.insert]
  | cons c m ih =>
    unfold Memory.insert
    split
    · simp
    · simp [h c (by simp), ih fun d hd => h d (by simp [hd])]

theorem Memory.read_insert_ne (m : Memory) {a a' : Nat} (b : Byte) (h : a' ≠ a) :
    Memory.read (Memory.insert m a b) a' = Memory.read m a' := by
  induction m with
  | nil => simp [Memory.insert, Ne.symm h]
  | cons c m ih =>
    unfold Memory.insert
    split
    · simp [Ne.symm h]
    · simp [ih]

theorem Memory.not_listed_filter (m : Memory) (a : Nat) :
    ∀ c ∈ m.filter (fun c => c.1 != a), c.1 ≠ a := fun c hc => by
  simpa using (List.mem_filter.mp hc).2

/-- A read after a write to the same place gives the byte written. -/
@[simp] theorem Memory.read_write_same (m : Memory) (a : Nat) (b : Byte) :
    Memory.read (Memory.write m a b) a = b := by
  unfold Memory.write
  split
  · next h => rw [Memory.read_filter_same, h]
  · exact Memory.read_insert_same _ _ _ (Memory.not_listed_filter m a)

/-- A write leaves every other place alone. -/
theorem Memory.read_write_ne (m : Memory) {a a' : Nat} (b : Byte) (h : a' ≠ a) :
    Memory.read (Memory.write m a b) a' = Memory.read m a' := by
  unfold Memory.write
  split
  · exact Memory.read_filter_ne m h
  · rw [Memory.read_insert_ne _ _ h, Memory.read_filter_ne m h]

theorem Memory.read_write (m : Memory) (a a' : Nat) (b : Byte) :
    Memory.read (Memory.write m a b) a' = if a' = a then b else Memory.read m a' := by
  split
  · next h => rw [h, Memory.read_write_same]
  · next h => exact Memory.read_write_ne m b h

/-- A cell inserted and filtered out again leaves no trace. -/
theorem Memory.filter_insert (m : Memory) (a : Nat) (b : Byte) (h : ∀ c ∈ m, c.1 ≠ a) :
    (Memory.insert m a b).filter (fun c => c.1 != a) = m := by
  have hm : m.filter (fun c => c.1 != a) = m := List.filter_eq_self.mpr fun c hc => by simpa using h c hc
  induction m with
  | nil => simp [Memory.insert]
  | cons c m ih =>
    have hc : c.1 ≠ a := h c (by simp)
    have hm' : m.filter (fun c => c.1 != a) = m :=
      List.filter_eq_self.mpr fun c hc => by simpa using h c (by simp [hc])
    unfold Memory.insert
    split
    · simp [hc, hm']
    · simp [hc, ih (fun c hc => h c (by simp [hc])) hm']

/-- Writing the same byte twice is writing it once (R79). -/
theorem Memory.write_write (m : Memory) (a : Nat) (b : Byte) :
    Memory.write (Memory.write m a b) a b = Memory.write m a b := by
  unfold Memory.write
  split
  · simp
  · rw [Memory.filter_insert _ _ _ (Memory.not_listed_filter m a)]

/-- The cells of a memory after an insertion. -/
theorem Memory.mem_insert (m : Memory) (a : Nat) (b : Byte) (c : Host.Cell) :
    c ∈ Memory.insert m a b ↔ c = (a, b) ∨ c ∈ m := by
  induction m with
  | nil => simp [Memory.insert]
  | cons d m ih =>
    unfold Memory.insert
    split
    · simp
    · simp only [List.mem_cons, ih]
      tauto

/-- Every cell after a write is the one written or was there before. -/
theorem Memory.mem_write (m : Memory) (a : Nat) (b : Byte) (c : Host.Cell) (h : c ∈ Memory.write m a b) :
    (c = (a, b) ∧ b ≠ blankByte) ∨ c ∈ m := by
  unfold Memory.write at h
  split at h
  · exact .inr (List.mem_filter.mp h).1
  · next hb =>
    rcases (Memory.mem_insert _ _ _ _).mp h with rfl | h
    · exact .inl ⟨rfl, hb⟩
    · exact .inr (List.mem_filter.mp h).1

theorem Memory.above_iff (a : Nat) (m : Memory) : Memory.above a m = true ↔ ∀ c ∈ m, a < c.1 := by
  simp [Memory.above]

theorem Memory.wf_cons (c : Host.Cell) (m : Memory) :
    Memory.wf (c :: m) = true ↔ (∀ d ∈ m, c.1 < d.1) ∧ c.2 ≠ blankByte ∧ Memory.wf m = true := by
  obtain ⟨a, b⟩ := c
  simp [Memory.wf, Memory.above_iff, and_assoc]

theorem Memory.wf_filter (m : Memory) (q : Host.Cell → Bool) (h : Memory.wf m = true) :
    Memory.wf (m.filter q) = true := by
  induction m with
  | nil => rfl
  | cons c m ih =>
    obtain ⟨h1, h2, h3⟩ := (Memory.wf_cons c m).mp h
    by_cases hq : q c = true
    · rw [List.filter_cons_of_pos hq]
      exact (Memory.wf_cons _ _).mpr ⟨fun d hd => h1 d (List.mem_filter.mp hd).1, h2, ih h3⟩
    · rw [List.filter_cons_of_neg hq]
      exact ih h3

theorem Memory.wf_insert (m : Memory) (a : Nat) (b : Byte) (hb : b ≠ blankByte) (hm : ∀ c ∈ m, c.1 ≠ a)
    (h : Memory.wf m = true) : Memory.wf (Memory.insert m a b) = true := by
  induction m with
  | nil => simp [Memory.insert, Memory.wf, Memory.above, hb]
  | cons c m ih =>
    obtain ⟨h1, h2, h3⟩ := (Memory.wf_cons c m).mp h
    unfold Memory.insert
    split
    · next hlt =>
      refine (Memory.wf_cons _ _).mpr ⟨fun d hd => ?_, hb, h⟩
      rcases List.mem_cons.mp hd with rfl | hd
      · exact hlt
      · exact Nat.lt_trans hlt (h1 d hd)
    · next hge =>
      refine (Memory.wf_cons _ _).mpr ⟨fun d hd => ?_, h2, ih (fun d hd => hm d (by simp [hd])) h3⟩
      rcases (Memory.mem_insert _ _ _ _).mp hd with rfl | hd
      · have := hm c (by simp)
        show c.1 < a
        omega
      · exact h1 d hd

/-- Every write keeps the canonical form. -/
theorem Memory.wf_write (m : Memory) (a : Nat) (b : Byte) (h : Memory.wf m = true) :
    Memory.wf (Memory.write m a b) = true := by
  unfold Memory.write
  split
  · exact Memory.wf_filter m _ h
  · next hb => exact Memory.wf_insert _ a b hb (Memory.not_listed_filter m a) (Memory.wf_filter m _ h)

/-- The memory of reset has the canonical form. -/
theorem Memory.wf_reset : Memory.wf State.reset.mem = true := rfl

theorem Memory.residuesOnly_iff (p : Params) (m : Memory) :
    Memory.residuesOnly p m = true ↔ ∀ c ∈ m, isElemAddr p c.1 = true ∧ c.2.toNat < 29 := by
  simp [Memory.residuesOnly]

/-- Writing a residue into an element word keeps "only residues, only in elements". -/
theorem Memory.residuesOnly_write (p : Params) (m : Memory) (a : Nat) (r : Residue)
    (ha : isElemAddr p a = true) (h : Memory.residuesOnly p m = true) :
    Memory.residuesOnly p (Memory.write m a (residueByte r)) = true := by
  rw [Memory.residuesOnly_iff] at h ⊢
  intro c hc
  rcases Memory.mem_write _ _ _ _ hc with ⟨rfl, -⟩ | hc
  · refine ⟨ha, ?_⟩
    have := r.isLt
    simp only [residueByte, BitVec.toNat_ofNat]
    omega
  · exact h c hc

/-- Under the canonical form a byte that is not 0 is listed. -/
theorem Memory.mem_of_read_ne (m : Memory) (a : Nat) (h : Memory.read m a ≠ blankByte) :
    (a, Memory.read m a) ∈ m := by
  induction m with
  | nil => simp at h
  | cons c m ih =>
    obtain ⟨k, b⟩ := c
    by_cases hk : k = a
    · subst hk
      simp
    · simp only [Memory.read_cons, hk, if_false] at h ⊢
      exact List.mem_cons_of_mem _ (ih h)

theorem Memory.read_of_mem (m : Memory) (h : Memory.wf m = true) (c : Host.Cell) (hc : c ∈ m) :
    Memory.read m c.1 = c.2 := by
  induction m with
  | nil => simp at hc
  | cons d m ih =>
    obtain ⟨h1, -, h3⟩ := (Memory.wf_cons d m).mp h
    rcases List.mem_cons.mp hc with rfl | hc
    · simp
    · have := h1 c hc
      rw [Memory.read_cons, if_neg (by omega), ih h3 hc]

/-- Two canonical memories that read alike everywhere are the same data. -/
theorem Memory.ext_of_read (m n : Memory) (hm : Memory.wf m = true) (hn : Memory.wf n = true)
    (h : ∀ a, Memory.read m a = Memory.read n a) : m = n := by
  induction m generalizing n with
  | nil =>
    cases n with
    | nil => rfl
    | cons d n =>
      have := h d.1
      simp only [Memory.read_nil, Memory.read_cons, if_true] at this
      exact absurd this.symm ((Memory.wf_cons d n).mp hn).2.1
  | cons c m ih =>
    obtain ⟨h1, h2, h3⟩ := (Memory.wf_cons c m).mp hm
    have hc : c ∈ n := by
      have hr : Memory.read n c.1 = c.2 := by rw [← h]; simp
      have := Memory.mem_of_read_ne n c.1 (by rw [hr]; exact h2)
      rwa [hr] at this
    cases n with
    | nil => simp at hc
    | cons d n =>
      obtain ⟨g1, g2, g3⟩ := (Memory.wf_cons d n).mp hn
      have hd : d ∈ c :: m := by
        have hr : Memory.read (c :: m) d.1 = d.2 := by rw [h]; simp
        have := Memory.mem_of_read_ne (c :: m) d.1 (by rw [hr]; exact g2)
        rwa [hr] at this
      have hcd : c = d := by
        rcases List.mem_cons.mp hc with rfl | hc
        · rfl
        · rcases List.mem_cons.mp hd with rfl | hd
          · rfl
          · have := h1 d hd
            have := g1 c hc
            omega
      subst hcd
      rw [ih n h3 g3 fun a => ?_]
      by_cases ha : c.1 = a
      · rw [Memory.read_eq_blank_of_not_listed m a fun e he => by have := h1 e he; omega,
          Memory.read_eq_blank_of_not_listed n a fun e he => by have := g1 e he; omega]
      · simpa [ha] using h a

end Sys2Proof.Machine
end

