-- ==== Sys2Proof/Laws/State.lean ====
section
/-! SUPPORT. One lemma per field of State per shared update, so that no proof unfolds a record update. -/

namespace Sys2Proof.Machine

variable (s : State)

@[simp] theorem setElem_params (sl : SlotNo) (i j : Nat) (r : Residue) : (setElem sl i j r s).params = s.params := rfl
@[simp] theorem setElem_ctrl (sl : SlotNo) (i j : Nat) (r : Residue) : (setElem sl i j r s).ctrl = s.ctrl := rfl
@[simp] theorem setElem_status (sl : SlotNo) (i j : Nat) (r : Residue) : (setElem sl i j r s).status = s.status := rfl
@[simp] theorem setElem_cmd (sl : SlotNo) (i j : Nat) (r : Residue) : (setElem sl i j r s).cmd = s.cmd := rfl
@[simp] theorem setElem_opa (sl : SlotNo) (i j : Nat) (r : Residue) : (setElem sl i j r s).opa = s.opa := rfl
@[simp] theorem setElem_opb (sl : SlotNo) (i j : Nat) (r : Residue) : (setElem sl i j r s).opb = s.opb := rfl
@[simp] theorem setElem_res (sl : SlotNo) (i j : Nat) (r : Residue) : (setElem sl i j r s).res = s.res := rfl
@[simp] theorem setElem_dim (sl : SlotNo) (i j : Nat) (r : Residue) : (setElem sl i j r s).dim = s.dim := rfl
@[simp] theorem setElem_mem (sl : SlotNo) (i j : Nat) (r : Residue) : (setElem sl i j r s).mem = s.mem.write (elemAddr s.params sl i j) (residueByte r) := rfl
@[simp] theorem setElem_lpivot (sl : SlotNo) (i j : Nat) (r : Residue) : (setElem sl i j r s).lpivot = s.lpivot := rfl
@[simp] theorem setElem_inbox (sl : SlotNo) (i j : Nat) (r : Residue) : (setElem sl i j r s).inbox = s.inbox := rfl
@[simp] theorem setElem_reads (sl : SlotNo) (i j : Nat) (r : Residue) : (setElem sl i j r s).reads = s.reads := rfl
@[simp] theorem setElem_busyPolls (sl : SlotNo) (i j : Nat) (r : Residue) : (setElem sl i j r s).busyPolls = s.busyPolls := rfl

@[simp] theorem setDim_params (sl : SlotNo) (d : Dim) : (setDim sl d s).params = s.params := rfl
@[simp] theorem setDim_ctrl (sl : SlotNo) (d : Dim) : (setDim sl d s).ctrl = s.ctrl := rfl
@[simp] theorem setDim_status (sl : SlotNo) (d : Dim) : (setDim sl d s).status = s.status := rfl
@[simp] theorem setDim_cmd (sl : SlotNo) (d : Dim) : (setDim sl d s).cmd = s.cmd := rfl
@[simp] theorem setDim_opa (sl : SlotNo) (d : Dim) : (setDim sl d s).opa = s.opa := rfl
@[simp] theorem setDim_opb (sl : SlotNo) (d : Dim) : (setDim sl d s).opb = s.opb := rfl
@[simp] theorem setDim_res (sl : SlotNo) (d : Dim) : (setDim sl d s).res = s.res := rfl
@[simp] theorem setDim_dim (sl : SlotNo) (d : Dim) : (setDim sl d s).dim = s.dim.set sl.val d := rfl
@[simp] theorem setDim_mem (sl : SlotNo) (d : Dim) : (setDim sl d s).mem = s.mem := rfl
@[simp] theorem setDim_lpivot (sl : SlotNo) (d : Dim) : (setDim sl d s).lpivot = s.lpivot := rfl
@[simp] theorem setDim_inbox (sl : SlotNo) (d : Dim) : (setDim sl d s).inbox = s.inbox := rfl
@[simp] theorem setDim_reads (sl : SlotNo) (d : Dim) : (setDim sl d s).reads = s.reads := rfl
@[simp] theorem setDim_busyPolls (sl : SlotNo) (d : Dim) : (setDim sl d s).busyPolls = s.busyPolls := rfl

@[simp] theorem setRes_params (r : Residue) : (setRes r s).params = s.params := rfl
@[simp] theorem setRes_ctrl (r : Residue) : (setRes r s).ctrl = s.ctrl := rfl
@[simp] theorem setRes_status (r : Residue) : (setRes r s).status = s.status := rfl
@[simp] theorem setRes_cmd (r : Residue) : (setRes r s).cmd = s.cmd := rfl
@[simp] theorem setRes_opa (r : Residue) : (setRes r s).opa = s.opa := rfl
@[simp] theorem setRes_opb (r : Residue) : (setRes r s).opb = s.opb := rfl
@[simp] theorem setRes_res (r : Residue) : (setRes r s).res = r := rfl
@[simp] theorem setRes_dim (r : Residue) : (setRes r s).dim = s.dim := rfl
@[simp] theorem setRes_mem (r : Residue) : (setRes r s).mem = s.mem := rfl
@[simp] theorem setRes_lpivot (r : Residue) : (setRes r s).lpivot = s.lpivot := rfl
@[simp] theorem setRes_inbox (r : Residue) : (setRes r s).inbox = s.inbox := rfl
@[simp] theorem setRes_reads (r : Residue) : (setRes r s).reads = s.reads := rfl
@[simp] theorem setRes_busyPolls (r : Residue) : (setRes r s).busyPolls = s.busyPolls := rfl

@[simp] theorem accept_params (v : Word) : (accept v s).params = s.params := rfl
@[simp] theorem accept_ctrl (v : Word) : (accept v s).ctrl = s.ctrl := rfl
@[simp] theorem accept_status (v : Word) : (accept v s).status = s.status.accepted := rfl
@[simp] theorem accept_cmd (v : Word) : (accept v s).cmd = v := rfl
@[simp] theorem accept_opa (v : Word) : (accept v s).opa = s.opa := rfl
@[simp] theorem accept_opb (v : Word) : (accept v s).opb = s.opb := rfl
@[simp] theorem accept_res (v : Word) : (accept v s).res = s.res := rfl
@[simp] theorem accept_dim (v : Word) : (accept v s).dim = s.dim := rfl
@[simp] theorem accept_mem (v : Word) : (accept v s).mem = s.mem := rfl
@[simp] theorem accept_lpivot (v : Word) : (accept v s).lpivot = s.ctrl.pivot := rfl
@[simp] theorem accept_inbox (v : Word) : (accept v s).inbox = s.inbox := rfl
@[simp] theorem accept_reads (v : Word) : (accept v s).reads = s.reads := rfl
@[simp] theorem accept_busyPolls (v : Word) : (accept v s).busyPolls = s.busyPolls := rfl

@[simp] theorem complete_params (c : CompletionCode) : (complete c s).params = s.params := rfl
@[simp] theorem complete_ctrl (c : CompletionCode) : (complete c s).ctrl = s.ctrl := rfl
@[simp] theorem complete_status (c : CompletionCode) : (complete c s).status = s.status.completed c := rfl
@[simp] theorem complete_cmd (c : CompletionCode) : (complete c s).cmd = s.cmd := rfl
@[simp] theorem complete_opa (c : CompletionCode) : (complete c s).opa = s.opa := rfl
@[simp] theorem complete_opb (c : CompletionCode) : (complete c s).opb = s.opb := rfl
@[simp] theorem complete_res (c : CompletionCode) : (complete c s).res = s.res := rfl
@[simp] theorem complete_dim (c : CompletionCode) : (complete c s).dim = s.dim := rfl
@[simp] theorem complete_mem (c : CompletionCode) : (complete c s).mem = s.mem := rfl
@[simp] theorem complete_lpivot (c : CompletionCode) : (complete c s).lpivot = s.lpivot := rfl
@[simp] theorem complete_inbox (c : CompletionCode) : (complete c s).inbox = s.inbox := rfl
@[simp] theorem complete_reads (c : CompletionCode) : (complete c s).reads = s.reads := rfl
@[simp] theorem complete_busyPolls (c : CompletionCode) : (complete c s).busyPolls = s.busyPolls := rfl

@[simp] theorem blockAccess_params : (blockAccess s).params = s.params := rfl
@[simp] theorem blockAccess_ctrl : (blockAccess s).ctrl = s.ctrl := rfl
@[simp] theorem blockAccess_status : (blockAccess s).status = s.status.blocked := rfl
@[simp] theorem blockAccess_cmd : (blockAccess s).cmd = s.cmd := rfl
@[simp] theorem blockAccess_opa : (blockAccess s).opa = s.opa := rfl
@[simp] theorem blockAccess_opb : (blockAccess s).opb = s.opb := rfl
@[simp] theorem blockAccess_res : (blockAccess s).res = s.res := rfl
@[simp] theorem blockAccess_dim : (blockAccess s).dim = s.dim := rfl
@[simp] theorem blockAccess_mem : (blockAccess s).mem = s.mem := rfl
@[simp] theorem blockAccess_lpivot : (blockAccess s).lpivot = s.lpivot := rfl
@[simp] theorem blockAccess_inbox : (blockAccess s).inbox = s.inbox := rfl
@[simp] theorem blockAccess_reads : (blockAccess s).reads = s.reads := rfl
@[simp] theorem blockAccess_busyPolls : (blockAccess s).busyPolls = s.busyPolls := rfl

@[simp] theorem resetBlock_params : (resetBlock s).params = s.params := rfl
@[simp] theorem resetBlock_ctrl : (resetBlock s).ctrl = State.reset.ctrl := rfl
@[simp] theorem resetBlock_status : (resetBlock s).status = State.reset.status := rfl
@[simp] theorem resetBlock_cmd : (resetBlock s).cmd = State.reset.cmd := rfl
@[simp] theorem resetBlock_opa : (resetBlock s).opa = State.reset.opa := rfl
@[simp] theorem resetBlock_opb : (resetBlock s).opb = State.reset.opb := rfl
@[simp] theorem resetBlock_res : (resetBlock s).res = State.reset.res := rfl
@[simp] theorem resetBlock_dim : (resetBlock s).dim = State.reset.dim := rfl
@[simp] theorem resetBlock_mem : (resetBlock s).mem = State.reset.mem := rfl
@[simp] theorem resetBlock_lpivot : (resetBlock s).lpivot = State.reset.lpivot := rfl
@[simp] theorem resetBlock_inbox : (resetBlock s).inbox = s.inbox := rfl
@[simp] theorem resetBlock_reads : (resetBlock s).reads = s.reads := rfl
@[simp] theorem resetBlock_busyPolls : (resetBlock s).busyPolls = s.busyPolls := rfl

@[simp] theorem Status.accepted_busy (t : Status) : t.accepted.busy = true := rfl
@[simp] theorem Status.accepted_done (t : Status) : t.accepted.done = false := rfl
@[simp] theorem Status.accepted_err (t : Status) : t.accepted.err = t.err := rfl
@[simp] theorem Status.accepted_busyacc (t : Status) : t.accepted.busyacc = t.busyacc := rfl
@[simp] theorem Status.accepted_ecode (t : Status) : t.accepted.ecode = t.ecode := rfl

@[simp] theorem Status.blocked_busy (t : Status) : t.blocked.busy = t.busy := rfl
@[simp] theorem Status.blocked_done (t : Status) : t.blocked.done = t.done := rfl
@[simp] theorem Status.blocked_err (t : Status) : t.blocked.err = t.err := rfl
@[simp] theorem Status.blocked_busyacc (t : Status) : t.blocked.busyacc = true := rfl
@[simp] theorem Status.blocked_ecode (t : Status) : t.blocked.ecode = t.ecode := rfl

@[simp] theorem Status.completed_busy (t : Status) (c : CompletionCode) : (t.completed c).busy = false := rfl
@[simp] theorem Status.completed_done (t : Status) (c : CompletionCode) : (t.completed c).done = true := rfl
@[simp] theorem Status.completed_err (t : Status) (c : CompletionCode) : (t.completed c).err = (t.err || c != .ok) := rfl
@[simp] theorem Status.completed_busyacc (t : Status) (c : CompletionCode) : (t.completed c).busyacc = t.busyacc := rfl
@[simp] theorem Status.completed_ecode (t : Status) (c : CompletionCode) : (t.completed c).ecode = c := rfl

@[simp] theorem Status.writeOneToClear_busy (t : Status) (v : Word) : (t.writeOneToClear v).busy = t.busy := rfl
@[simp] theorem Status.writeOneToClear_done (t : Status) (v : Word) : (t.writeOneToClear v).done = (t.done && !v.getLsbD 1) := rfl
@[simp] theorem Status.writeOneToClear_err (t : Status) (v : Word) : (t.writeOneToClear v).err = (t.err && !v.getLsbD 2) := rfl
@[simp] theorem Status.writeOneToClear_busyacc (t : Status) (v : Word) : (t.writeOneToClear v).busyacc = (t.busyacc && !v.getLsbD 3) := rfl
@[simp] theorem Status.writeOneToClear_ecode (t : Status) (v : Word) : (t.writeOneToClear v).ecode = t.ecode := rfl

/-- setElems is a run of setElem: a field that setElem keeps is kept. -/
theorem setElems_keeps {α : Type} (f : State → α) (h : ∀ sl i j r t, f (setElem sl i j r t) = f t) (sl : SlotNo)
    (g : Nat → Nat → Residue) : f (setElems sl g s) = f s := by
  unfold setElems
  generalize positions s.params = l
  induction l generalizing s with
  | nil => rfl
  | cons x l ih => rw [List.foldl_cons, ih, h]

@[simp] theorem setElems_params (sl : SlotNo) (g : Nat → Nat → Residue) : (setElems sl g s).params = s.params :=
  setElems_keeps s (·.params) (fun _ _ _ _ _ => rfl) sl g
@[simp] theorem setElems_ctrl (sl : SlotNo) (g : Nat → Nat → Residue) : (setElems sl g s).ctrl = s.ctrl :=
  setElems_keeps s (·.ctrl) (fun _ _ _ _ _ => rfl) sl g
@[simp] theorem setElems_status (sl : SlotNo) (g : Nat → Nat → Residue) : (setElems sl g s).status = s.status :=
  setElems_keeps s (·.status) (fun _ _ _ _ _ => rfl) sl g
@[simp] theorem setElems_cmd (sl : SlotNo) (g : Nat → Nat → Residue) : (setElems sl g s).cmd = s.cmd :=
  setElems_keeps s (·.cmd) (fun _ _ _ _ _ => rfl) sl g
@[simp] theorem setElems_opa (sl : SlotNo) (g : Nat → Nat → Residue) : (setElems sl g s).opa = s.opa :=
  setElems_keeps s (·.opa) (fun _ _ _ _ _ => rfl) sl g
@[simp] theorem setElems_opb (sl : SlotNo) (g : Nat → Nat → Residue) : (setElems sl g s).opb = s.opb :=
  setElems_keeps s (·.opb) (fun _ _ _ _ _ => rfl) sl g
@[simp] theorem setElems_res (sl : SlotNo) (g : Nat → Nat → Residue) : (setElems sl g s).res = s.res :=
  setElems_keeps s (·.res) (fun _ _ _ _ _ => rfl) sl g
@[simp] theorem setElems_dim (sl : SlotNo) (g : Nat → Nat → Residue) : (setElems sl g s).dim = s.dim :=
  setElems_keeps s (·.dim) (fun _ _ _ _ _ => rfl) sl g
@[simp] theorem setElems_lpivot (sl : SlotNo) (g : Nat → Nat → Residue) : (setElems sl g s).lpivot = s.lpivot :=
  setElems_keeps s (·.lpivot) (fun _ _ _ _ _ => rfl) sl g
@[simp] theorem setElems_inbox (sl : SlotNo) (g : Nat → Nat → Residue) : (setElems sl g s).inbox = s.inbox :=
  setElems_keeps s (·.inbox) (fun _ _ _ _ _ => rfl) sl g
@[simp] theorem setElems_reads (sl : SlotNo) (g : Nat → Nat → Residue) : (setElems sl g s).reads = s.reads :=
  setElems_keeps s (·.reads) (fun _ _ _ _ _ => rfl) sl g
@[simp] theorem setElems_busyPolls (sl : SlotNo) (g : Nat → Nat → Residue) : (setElems sl g s).busyPolls = s.busyPolls :=
  setElems_keeps s (·.busyPolls) (fun _ _ _ _ _ => rfl) sl g

@[simp] theorem writeResult_params (sl : SlotNo) (m k : Nat) (X : Mat) : (writeResult sl m k X s).params = s.params := by
  simp [writeResult]
@[simp] theorem writeResult_ctrl (sl : SlotNo) (m k : Nat) (X : Mat) : (writeResult sl m k X s).ctrl = s.ctrl := by
  simp [writeResult]
@[simp] theorem writeResult_status (sl : SlotNo) (m k : Nat) (X : Mat) : (writeResult sl m k X s).status = s.status := by
  simp [writeResult]
@[simp] theorem writeResult_cmd (sl : SlotNo) (m k : Nat) (X : Mat) : (writeResult sl m k X s).cmd = s.cmd := by
  simp [writeResult]
@[simp] theorem writeResult_opa (sl : SlotNo) (m k : Nat) (X : Mat) : (writeResult sl m k X s).opa = s.opa := by
  simp [writeResult]
@[simp] theorem writeResult_opb (sl : SlotNo) (m k : Nat) (X : Mat) : (writeResult sl m k X s).opb = s.opb := by
  simp [writeResult]
@[simp] theorem writeResult_res (sl : SlotNo) (m k : Nat) (X : Mat) : (writeResult sl m k X s).res = s.res := by
  simp [writeResult]
@[simp] theorem writeResult_dim (sl : SlotNo) (m k : Nat) (X : Mat) : (writeResult sl m k X s).dim = s.dim.set sl.val ⟨BitVec.ofNat 8 m, BitVec.ofNat 8 k⟩ := by
  simp [writeResult]
@[simp] theorem writeResult_lpivot (sl : SlotNo) (m k : Nat) (X : Mat) : (writeResult sl m k X s).lpivot = s.lpivot := by
  simp [writeResult]
@[simp] theorem writeResult_inbox (sl : SlotNo) (m k : Nat) (X : Mat) : (writeResult sl m k X s).inbox = s.inbox := by
  simp [writeResult]
@[simp] theorem writeResult_reads (sl : SlotNo) (m k : Nat) (X : Mat) : (writeResult sl m k X s).reads = s.reads := by
  simp [writeResult]
@[simp] theorem writeResult_busyPolls (sl : SlotNo) (m k : Nat) (X : Mat) : (writeResult sl m k X s).busyPolls = s.busyPolls := by
  simp [writeResult]

@[simp] theorem setSentinel_params (sl : SlotNo) : (setSentinel sl s).params = s.params := by
  simp [setSentinel]
@[simp] theorem setSentinel_ctrl (sl : SlotNo) : (setSentinel sl s).ctrl = s.ctrl := by
  simp [setSentinel]
@[simp] theorem setSentinel_status (sl : SlotNo) : (setSentinel sl s).status = s.status := by
  simp [setSentinel]
@[simp] theorem setSentinel_cmd (sl : SlotNo) : (setSentinel sl s).cmd = s.cmd := by
  simp [setSentinel]
@[simp] theorem setSentinel_opa (sl : SlotNo) : (setSentinel sl s).opa = s.opa := by
  simp [setSentinel]
@[simp] theorem setSentinel_opb (sl : SlotNo) : (setSentinel sl s).opb = s.opb := by
  simp [setSentinel]
@[simp] theorem setSentinel_res (sl : SlotNo) : (setSentinel sl s).res = s.res := by
  simp [setSentinel]
@[simp] theorem setSentinel_dim (sl : SlotNo) : (setSentinel sl s).dim = s.dim.set sl.val ⟨0, 0⟩ := by
  simp [setSentinel]
@[simp] theorem setSentinel_lpivot (sl : SlotNo) : (setSentinel sl s).lpivot = s.lpivot := by
  simp [setSentinel]
@[simp] theorem setSentinel_inbox (sl : SlotNo) : (setSentinel sl s).inbox = s.inbox := by
  simp [setSentinel]
@[simp] theorem setSentinel_reads (sl : SlotNo) : (setSentinel sl s).reads = s.reads := by
  simp [setSentinel]
@[simp] theorem setSentinel_busyPolls (sl : SlotNo) : (setSentinel sl s).busyPolls = s.busyPolls := by
  simp [setSentinel]

end Sys2Proof.Machine
end

