-- ==== Sys2Proof/Laws/Operands.lean ====
section
/-! SUPPORT. The laws of the address map (20_memory.md R72): the address of an element and the element at an address are inverse to
each other, two elements never share an address, and every element address fits the 16-bit offset. -/

namespace Sys2Proof.Machine

/-- The word index of an element is below NMAX·CMAX. -/
theorem index_lt {n c i j : Nat} (hi : i < n) (hj : j < c) : j * n + i < n * c := by
  have h : (j + 1) * n ≤ c * n := Nat.mul_le_mul_right n hj
  rw [Nat.add_mul, Nat.one_mul] at h
  rw [Nat.mul_comm n c]
  omega

theorem index_mod {n i j : Nat} (hi : i < n) : (j * n + i) % n = i := by
  rw [Nat.add_comm, Nat.add_mul_mod_self_right, Nat.mod_eq_of_lt hi]

theorem index_div {n i j : Nat} (hi : i < n) : (j * n + i) / n = j := by
  rw [Nat.add_comm, Nat.add_mul_div_right _ _ (by omega), Nat.div_eq_of_lt hi, Nat.zero_add]

theorem index_split (n q : Nat) : q / n * n + q % n = q := Nat.div_add_mod' q n

variable {p : Params}

theorem elemAddr_bounds (hp : p.Legal) (sl : SlotNo) {i j : Nat} (hi : i < p.nmax) (hj : j < p.cmax) :
    wbase sl ≤ elemAddr p sl i j ∧ elemAddr p sl i j < wbase sl + 0x1000 := by
  have h := index_lt hi hj
  have := hp.2.2.2.2
  unfold elemAddr
  omega

theorem windowIndex_elemAddr (hp : p.Legal) (sl : SlotNo) {i j : Nat} (hi : i < p.nmax) (hj : j < p.cmax) :
    windowIndex (elemAddr p sl i j) = j * p.nmax + i := by
  have h := index_lt hi hj
  have := hp.2.2.2.2
  unfold windowIndex elemAddr wbase
  omega

theorem windowSlot_elemAddr (hp : p.Legal) (sl : SlotNo) {i j : Nat} (hi : i < p.nmax) (hj : j < p.cmax) :
    windowSlot (elemAddr p sl i j) = sl := by
  have h := index_lt hi hj
  have := hp.2.2.2.2
  have := sl.isLt
  unfold windowSlot elemAddr wbase
  apply Fin.ext
  rw [Fin.val_ofNat]
  omega

/-- Two elements have the same address only if they are the same element. -/
theorem elemAddr_inj (hp : p.Legal) {sl sl' : SlotNo} {i j i' j' : Nat} (hi : i < p.nmax) (hj : j < p.cmax)
    (hi' : i' < p.nmax) (hj' : j' < p.cmax) (h : elemAddr p sl i j = elemAddr p sl' i' j') :
    sl = sl' ∧ i = i' ∧ j = j' := by
  have hs : sl = sl' := by
    rw [← windowSlot_elemAddr hp sl hi hj, h, windowSlot_elemAddr hp sl' hi' hj']
  have hq : j * p.nmax + i = j' * p.nmax + i' := by
    rw [← windowIndex_elemAddr hp sl hi hj, h, windowIndex_elemAddr hp sl' hi' hj']
  refine ⟨hs, ?_, ?_⟩
  · rw [← index_mod (j := j) hi, hq, index_mod hi']
  · rw [← index_div (j := j) hi, hq, index_div hi']

theorem isElemAddr_elemAddr (hp : p.Legal) (sl : SlotNo) {i j : Nat} (hi : i < p.nmax) (hj : j < p.cmax) :
    isElemAddr p (elemAddr p sl i j) = true := by
  have hw := windowIndex_elemAddr hp sl hi hj
  have h := index_lt hi hj
  have hl := hp.2.2.2.2
  have hs := sl.isLt
  unfold isElemAddr
  rw [hw]
  unfold elemAddr wbase
  simp only [Bool.and_eq_true, decide_eq_true_eq, beq_iff_eq]
  omega

/-- Every element address is an element's. -/
theorem elemAddr_of_isElemAddr (hp : p.Legal) {a : Nat} (h : isElemAddr p a = true) :
    ∃ sl i j, i < p.nmax ∧ j < p.cmax ∧ a = elemAddr p sl i j := by
  unfold isElemAddr at h
  simp only [Bool.and_eq_true, decide_eq_true_eq, beq_iff_eq] at h
  obtain ⟨⟨⟨h1, h2⟩, h3⟩, h4⟩ := h
  have hn : 0 < p.nmax := hp.1
  refine ⟨windowSlot a, windowIndex a % p.nmax, windowIndex a / p.nmax, Nat.mod_lt _ hn,
    Nat.div_lt_of_lt_mul h4, ?_⟩
  unfold elemAddr wbase windowSlot
  rw [index_split, Fin.val_ofNat]
  unfold windowIndex
  omega

/-- An element address fits the offset. -/
theorem elemAddr_toNat (hp : p.Legal) (sl : SlotNo) {i j : Nat} (hi : i < p.nmax) (hj : j < p.cmax) :
    (BitVec.ofNat 16 (elemAddr p sl i j)).toNat = elemAddr p sl i j := by
  have h := elemAddr_bounds hp sl hi hj
  have := sl.isLt
  unfold wbase at h
  rw [BitVec.toNat_ofNat]
  omega

theorem ite_ne_of_ne {α : Type} {c : Prop} [Decidable c] {a b x : α} (ha : a ≠ x) (hb : b ≠ x) :
    (if c then a else b) ≠ x := by
  split <;> assumption

/-- No register offset names an element (R71). -/
theorem registerTarget_ne_elem (off : Offset) (sl : SlotNo) (i j : Nat) :
    registerTarget off ≠ .elem sl i j := by
  unfold registerTarget
  repeat refine ite_ne_of_ne nofun ?_
  nofun

/-- The map sends an element's address to that element (R72). -/
theorem target_elemAddr (hp : p.Legal) (sl : SlotNo) {i j : Nat} (hi : i < p.nmax) (hj : j < p.cmax) :
    target p (BitVec.ofNat 16 (elemAddr p sl i j)) = .elem sl i j := by
  have hb := elemAddr_bounds hp sl hi hj
  have hs := sl.isLt
  unfold wbase at hb
  unfold target windowTarget
  rw [elemAddr_toNat hp sl hi hj, if_neg (by omega), if_pos (by omega), windowIndex_elemAddr hp sl hi hj,
    if_pos (index_lt hi hj), windowSlot_elemAddr hp sl hi hj, index_mod hi, index_div hi]

/-- An aligned offset that the map sends to an element is that element's address (R72). -/
theorem elem_of_target (hp : p.Legal) {off : Offset} (ha : off.toNat % 4 = 0) {sl : SlotNo} {i j : Nat}
    (h : target p off = .elem sl i j) :
    i < p.nmax ∧ j < p.cmax ∧ off.toNat = elemAddr p sl i j ∧ isElemAddr p off.toNat = true := by
  unfold target at h
  split at h
  · exact absurd h (registerTarget_ne_elem off sl i j)
  next hlo =>
  split at h
  swap
  · cases h
  next hhi =>
  unfold windowTarget at h
  split at h
  swap
  · cases h
  next hq =>
  cases h
  have he : isElemAddr p off.toNat = true := by
    unfold isElemAddr
    simp only [Bool.and_eq_true, decide_eq_true_eq, beq_iff_eq]
    omega
  refine ⟨Nat.mod_lt _ hp.1, Nat.div_lt_of_lt_mul hq, ?_, he⟩
  unfold elemAddr wbase windowSlot
  rw [index_split, Fin.val_ofNat]
  unfold windowIndex
  omega

end Sys2Proof.Machine
end

