-- ==== Sys2Proof/Laws/Ops.lean ====
section
/-! SUPPORT. What the slot write-back primitives do (10_state.md R47, R48): every element of the slot takes its value, every other
byte stays, and the canonical form is kept. -/

namespace Sys2Proof.Machine

theorem mem_positions {p : Params} (ij : Nat × Nat) :
    ij ∈ positions p ↔ ij.1 < p.nmax ∧ ij.2 < p.cmax := by
  obtain ⟨i, j⟩ := ij
  simp only [positions, List.mem_map, List.mem_range, Prod.mk.injEq]
  constructor
  · rintro ⟨q, hq, rfl, rfl⟩
    have hn : 0 < p.nmax := by
      rcases Nat.eq_zero_or_pos p.nmax with h | h
      · simp [h] at hq
      · exact h
    exact ⟨Nat.mod_lt _ hn, Nat.div_lt_of_lt_mul hq⟩
  · rintro ⟨hi, hj⟩
    exact ⟨j * p.nmax + i, index_lt hi hj, index_mod hi, index_div hi⟩

/-- A run of setElem over any list of positions leaves every byte alone that is no element of the list. -/
theorem foldl_setElem_read_ne (sl : SlotNo) (f : Nat → Nat → Residue) (l : List (Nat × Nat)) (s : State) (a : Nat)
    (h : ∀ ij ∈ l, a ≠ elemAddr s.params sl ij.1 ij.2) :
    Memory.read (l.foldl (fun t ij => setElem sl ij.1 ij.2 (f ij.1 ij.2) t) s).mem a = Memory.read s.mem a := by
  induction l generalizing s with
  | nil => rfl
  | cons x l ih =>
    rw [List.foldl_cons, ih (setElem sl x.1 x.2 (f x.1 x.2) s) fun ij hij => h ij (List.mem_cons_of_mem _ hij), setElem_mem,
      Memory.read_write_ne _ _ (h x (by simp))]

/-- A run of setElem over a list of positions in range gives each of them its value. -/
theorem foldl_setElem_read_same (sl : SlotNo) (f : Nat → Nat → Residue) (l : List (Nat × Nat)) (s : State)
    (hp : s.params.Legal) (hl : ∀ ij ∈ l, ij.1 < s.params.nmax ∧ ij.2 < s.params.cmax)
    (x : Nat × Nat) (hx : x ∈ l) :
    Memory.read (l.foldl (fun t ij => setElem sl ij.1 ij.2 (f ij.1 ij.2) t) s).mem
      (elemAddr s.params sl x.1 x.2) = residueByte (f x.1 x.2) := by
  induction l generalizing s with
  | nil => simp at hx
  | cons y l ih =>
    rw [List.foldl_cons]
    by_cases hxl : x ∈ l
    · exact ih (setElem sl y.1 y.2 (f y.1 y.2) s) hp (fun ij hij => hl ij (List.mem_cons_of_mem _ hij)) hxl
    · obtain rfl : x = y := by simpa [hxl] using hx
      rw [foldl_setElem_read_ne, setElem_mem, Memory.read_write_same]
      intro ij hij h
      have hx' := hl x (by simp)
      have hij' := hl ij (List.mem_cons_of_mem _ hij)
      obtain ⟨-, h1, h2⟩ := elemAddr_inj hp hx'.1 hx'.2 hij'.1 hij'.2 h
      exact hxl (by rwa [show x = ij from Prod.ext h1 h2])

/-- setElems gives every element of the slot its value (R47, R48). -/
theorem elemByte_setElems_same (s : State) (hp : s.params.Legal) (sl : SlotNo) (f : Nat → Nat → Residue) {i j : Nat}
    (hi : i < s.params.nmax) (hj : j < s.params.cmax) :
    elemByte (setElems sl f s) sl i j = residueByte (f i j) := by
  unfold elemByte
  rw [setElems_params]
  exact foldl_setElem_read_same sl f _ s hp (fun ij h => (mem_positions ij).mp h) (i, j)
    ((mem_positions _).mpr ⟨hi, hj⟩)

/-- What setElems stores depends on the parameters and the storage alone. -/
theorem setElems_mem_congr {s t : State} (hp : s.params = t.params) (hm : s.mem = t.mem) (sl : SlotNo)
    (f : Nat → Nat → Residue) : (setElems sl f s).mem = (setElems sl f t).mem := by
  unfold setElems
  rw [hp]
  generalize positions t.params = l
  induction l generalizing s t with
  | nil => exact hm
  | cons x l ih =>
    refine ih (s := setElem sl x.1 x.2 (f x.1 x.2) s) (t := setElem sl x.1 x.2 (f x.1 x.2) t) hp ?_
    rw [setElem_mem, setElem_mem, hp, hm]

/-- setElems leaves every other byte alone (R47, R48). -/
theorem read_setElems_frame (s : State) (sl : SlotNo) (f : Nat → Nat → Residue) (a : Nat)
    (h : ∀ i j, i < s.params.nmax → j < s.params.cmax → a ≠ elemAddr s.params sl i j) :
    Memory.read (setElems sl f s).mem a = Memory.read s.mem a :=
  foldl_setElem_read_ne sl f _ s a fun ij hij => h ij.1 ij.2 ((mem_positions ij).mp hij).1 ((mem_positions ij).mp hij).2

/-- setElems leaves the elements of every other slot alone. -/
theorem elemByte_setElems_ne (s : State) (hp : s.params.Legal) {sl sl' : SlotNo} (hne : sl' ≠ sl)
    (f : Nat → Nat → Residue) {i j : Nat} (hi : i < s.params.nmax) (hj : j < s.params.cmax) :
    elemByte (setElems sl f s) sl' i j = elemByte s sl' i j := by
  unfold elemByte
  rw [setElems_params]
  exact read_setElems_frame s sl f _ fun i' j' hi' hj' h => hne (elemAddr_inj hp hi hj hi' hj' h).1

/-- setElem keeps the canonical form and "only residues, only in elements". -/
theorem setElem_keeps_storage (s : State) (hp : s.params.Legal) (sl : SlotNo) (r : Residue) {i j : Nat}
    (hi : i < s.params.nmax) (hj : j < s.params.cmax)
    (hw : Memory.wf s.mem = true ∧ Memory.residuesOnly s.params s.mem = true) :
    Memory.wf (setElem sl i j r s).mem = true ∧ Memory.residuesOnly s.params (setElem sl i j r s).mem = true :=
  ⟨Memory.wf_write _ _ _ hw.1, Memory.residuesOnly_write _ _ _ _ (isElemAddr_elemAddr hp sl hi hj) hw.2⟩

/-- setElems keeps the canonical form and "only residues, only in elements". -/
theorem setElems_keeps_storage (s : State) (hp : s.params.Legal) (sl : SlotNo) (f : Nat → Nat → Residue)
    (hw : Memory.wf s.mem = true ∧ Memory.residuesOnly s.params s.mem = true) :
    Memory.wf (setElems sl f s).mem = true ∧ Memory.residuesOnly s.params (setElems sl f s).mem = true := by
  unfold setElems
  have hl : ∀ ij ∈ positions s.params, ij.1 < s.params.nmax ∧ ij.2 < s.params.cmax := fun ij h =>
    (mem_positions ij).mp h
  revert hl
  generalize positions s.params = l
  intro hl
  induction l generalizing s with
  | nil => exact hw
  | cons x l ih =>
    have hx := hl x (by simp)
    exact ih (setElem sl x.1 x.2 (f x.1 x.2) s) hp (setElem_keeps_storage s hp sl _ hx.1 hx.2 hw)
      fun ij hij => hl ij (List.mem_cons_of_mem _ hij)

@[simp] theorem dim_set_same (v : Vector Dim 4) (sl : SlotNo) (d : Dim) : (v.set sl.val d).get sl = d := by
  simp [Vector.get_eq_getElem]

theorem dim_set_ne (v : Vector Dim 4) {sl sl' : SlotNo} (h : sl' ≠ sl) (d : Dim) :
    (v.set sl.val d).get sl' = v.get sl' := by
  have : sl.val ≠ sl'.val := fun e => h (Fin.ext e.symm)
  simp [Vector.get_eq_getElem, Vector.getElem_set_ne, this]

theorem rows_le (s : State) (hi : Inv s) (sl : SlotNo) :
    (rows s sl = 0 ∧ cols s sl = 0) ∨
      (1 ≤ rows s sl ∧ rows s sl ≤ s.params.nmax ∧ 1 ≤ cols s sl ∧ cols s sl ≤ s.params.cmax) := by
  have h : (s.dim.get sl).legal s.params = true := by
    have h := hi.2.2.2.1
    simp only [shapesLegal, Bool.and_eq_true] at h
    obtain ⟨⟨⟨h0, h1⟩, h2⟩, h3⟩ := h
    match sl with
    | 0 => exact h0
    | 1 => exact h1
    | 2 => exact h2
    | 3 => exact h3
  unfold Dim.legal at h
  simp only [Bool.or_eq_true, Bool.and_eq_true, beq_iff_eq, decide_eq_true_eq] at h
  unfold rows cols
  rcases h with ⟨h1, h2⟩ | h
  · left
    simp [h1, h2]
  · right
    tauto

theorem rows_lt_256 (s : State) (sl : SlotNo) : rows s sl < 256 := (s.dim.get sl).rows.isLt

theorem cols_lt_256 (s : State) (sl : SlotNo) : cols s sl < 256 := (s.dim.get sl).cols.isLt

@[simp] theorem rows_complete (s : State) (c : CompletionCode) (sl : SlotNo) : rows (complete c s) sl = rows s sl := rfl
@[simp] theorem cols_complete (s : State) (c : CompletionCode) (sl : SlotNo) : cols (complete c s) sl = cols s sl := rfl
@[simp] theorem elemByte_complete (s : State) (c : CompletionCode) (sl : SlotNo) (i j : Nat) :
    elemByte (complete c s) sl i j = elemByte s sl i j := rfl
@[simp] theorem elem_complete (s : State) (c : CompletionCode) (sl : SlotNo) (i j : Nat) :
    elem (complete c s) sl i j = elem s sl i j := rfl
@[simp] theorem value_complete (s : State) (c : CompletionCode) (sl : SlotNo) :
    value (complete c s) sl = value s sl := rfl

theorem rows_writeResult (s : State) (sl : SlotNo) {m k : Nat} (X : Mat) (hm : m < 256) :
    rows (writeResult sl m k X s) sl = m := by
  simp [rows, Nat.mod_eq_of_lt hm]

theorem cols_writeResult (s : State) (sl : SlotNo) {m k : Nat} (X : Mat) (hk : k < 256) :
    cols (writeResult sl m k X s) sl = k := by
  simp [cols, Nat.mod_eq_of_lt hk]

/-- The elements a write-back leaves (R47). -/
theorem elemByte_writeResult (s : State) (hp : s.params.Legal) (sl : SlotNo) (m k : Nat) (X : Mat) {i j : Nat}
    (hi : i < s.params.nmax) (hj : j < s.params.cmax) :
    elemByte (writeResult sl m k X s) sl i j = residueByte (if i < m ∧ j < k then entry X i j else 0) := by
  unfold writeResult
  rw [elemByte_setElems_same _ (by exact hp) _ _ (by exact hi) (by exact hj)]

theorem elem_writeResult (s : State) (hp : s.params.Legal) (sl : SlotNo) (m k : Nat) (X : Mat) {i j : Nat}
    (hi : i < s.params.nmax) (hj : j < s.params.cmax) :
    elem (writeResult sl m k X s) sl i j = if i < m ∧ j < k then entry X i j else 0 := by
  unfold elem
  rw [elemByte_writeResult s hp sl m k X hi hj, byteResidue_residueByte]

/-- The value a write-back leaves (R47). -/
theorem value_writeResult (s : State) (hp : s.params.Legal) (sl : SlotNo) {m k : Nat} (X : Mat)
    (hm : m ≤ s.params.nmax) (hk : k ≤ s.params.cmax) :
    value (writeResult sl m k X s) sl = matOf m k (entry X) := by
  have h := hp.2.2
  unfold value
  rw [rows_writeResult s sl X (by have := hp.2.1; omega), cols_writeResult s sl X (by omega)]
  refine matOf_congr m k _ _ fun i j hi hj => ?_
  rw [elem_writeResult s hp sl m k X (by omega) (by omega), if_pos ⟨hi, hj⟩]

/-- A run of setElem that stores 0 everywhere leaves 0 at every element of its list. -/
theorem foldl_setElem_zero (sl : SlotNo) (l : List (Nat × Nat)) (s : State) (x : Nat × Nat) (hx : x ∈ l) :
    Memory.read (l.foldl (fun t ij => setElem sl ij.1 ij.2 0 t) s).mem (elemAddr s.params sl x.1 x.2) = 0 := by
  have keep : ∀ (l : List (Nat × Nat)) (s : State) (a : Nat), Memory.read s.mem a = 0 →
      Memory.read (l.foldl (fun t ij => setElem sl ij.1 ij.2 0 t) s).mem a = 0 := by
    intro l
    induction l with
    | nil => intro s a h; exact h
    | cons y l ih =>
      intro s a h
      refine ih (setElem sl y.1 y.2 0 s) a ?_
      rw [setElem_mem, Memory.read_write]
      split
      · rfl
      · exact h
  induction l generalizing s with
  | nil => simp at hx
  | cons y l ih =>
    rw [List.foldl_cons]
    rcases List.mem_cons.mp hx with rfl | hx
    · exact keep l _ _ (by rw [setElem_mem, Memory.read_write_same]; rfl)
    · exact ih (setElem sl y.1 y.2 0 s) hx

/-- setSentinel clears every element (R48). -/
theorem elemByte_setSentinel (s : State) (sl : SlotNo) {i j : Nat}
    (hi : i < s.params.nmax) (hj : j < s.params.cmax) : elemByte (setSentinel sl s) sl i j = 0 := by
  unfold elemByte
  rw [setSentinel_params]
  exact foldl_setElem_zero sl _ (setDim sl ⟨0, 0⟩ s) (i, j) ((mem_positions (i, j)).mpr ⟨hi, hj⟩)

@[simp] theorem rows_setSentinel (s : State) (sl : SlotNo) : rows (setSentinel sl s) sl = 0 := by
  simp [rows]

@[simp] theorem cols_setSentinel (s : State) (sl : SlotNo) : cols (setSentinel sl s) sl = 0 := by
  simp [cols]

theorem read_writeResult_frame (s : State) (sl : SlotNo) (m k : Nat) (X : Mat) (a : Nat)
    (h : ∀ i j, i < s.params.nmax → j < s.params.cmax → a ≠ elemAddr s.params sl i j) :
    Memory.read (writeResult sl m k X s).mem a = Memory.read s.mem a :=
  read_setElems_frame (setDim sl _ s) sl _ a h

theorem read_setSentinel_frame (s : State) (sl : SlotNo) (a : Nat)
    (h : ∀ i j, i < s.params.nmax → j < s.params.cmax → a ≠ elemAddr s.params sl i j) :
    Memory.read (setSentinel sl s).mem a = Memory.read s.mem a :=
  read_setElems_frame (setDim sl _ s) sl _ a h

/-- The value of every other slot is what it was. -/
theorem value_writeResult_ne (s : State) (hi : Inv s) {sl sl' : SlotNo} (hne : sl' ≠ sl) (m k : Nat) (X : Mat) :
    value (writeResult sl m k X s) sl' = value s sl' := by
  have hr : rows (writeResult sl m k X s) sl' = rows s sl' := by simp [rows, dim_set_ne _ hne]
  have hc : cols (writeResult sl m k X s) sl' = cols s sl' := by simp [cols, dim_set_ne _ hne]
  unfold value
  rw [hr, hc]
  refine matOf_congr _ _ _ _ fun i j h1 h2 => ?_
  have hb := rows_le s hi sl'
  unfold elem writeResult
  rw [elemByte_setElems_ne _ (by exact hi.1) hne _ (by show i < s.params.nmax; omega)
    (by show j < s.params.cmax; omega)]
  rfl

/-- A command that writes back into slot sl changes that slot and STATUS only (R47, R193). -/
theorem slotFrame_writeResult (s : State) (sl : SlotNo) (m k : Nat) (X : Mat) (c : CompletionCode) :
    slotFrame sl s (complete c (writeResult sl m k X s)) := by
  refine ⟨by simp, by simp, by simp, by simp, by simp, by simp, by simp, by simp, by simp, by simp, fun sl' h => ?_,
    fun a h => ?_⟩
  · simp [dim_set_ne _ h]
  · simpa using read_writeResult_frame s sl m k X a h

/-- A command that fails into slot sl changes that slot and STATUS only (R48, R193). -/
theorem slotFrame_setSentinel (s : State) (sl : SlotNo) (c : CompletionCode) :
    slotFrame sl s (complete c (setSentinel sl s)) := by
  refine ⟨by simp, by simp, by simp, by simp, by simp, by simp, by simp, by simp, by simp, by simp, fun sl' h => ?_,
    fun a h => ?_⟩
  · simp [dim_set_ne _ h]
  · simpa using read_setSentinel_frame s sl a h

theorem sentinelIn_setSentinel (s : State) (sl : SlotNo) (c : CompletionCode) :
    sentinelIn (complete c (setSentinel sl s)) sl := by
  refine ⟨by simp, by simp, fun i j hi hj => ?_⟩
  simp only [complete_params, setSentinel_params] at hi hj
  simpa using elemByte_setSentinel s sl hi hj

/-- Under the invariant every stored byte of a slot is a residue (R42). -/
theorem elemByte_lt (s : State) (hi : Inv s) (sl : SlotNo) (i j : Nat) : (elemByte s sl i j).toNat < 29 := by
  by_cases h : elemByte s sl i j = blankByte
  · rw [h]
    decide
  · exact ((Memory.residuesOnly_iff _ _).mp hi.2.2.1 _ (Memory.mem_of_read_ne _ _ h)).2

theorem elem_val (s : State) (hi : Inv s) (sl : SlotNo) (i j : Nat) :
    (elem s sl i j).val = (elemByte s sl i j).toNat :=
  byteResidue_val_of_lt _ (elemByte_lt s hi sl i j)

/-- The entries of value(sl) are the slot's elements (R12). -/
theorem entry_value (s : State) (sl : SlotNo) {i j : Nat} (hi : i < rows s sl) (hj : j < cols s sl) :
    entry (value s sl) i j = elem s sl i j :=
  entry_matOf _ _ _ hi hj

/-- The exact sum of R172 is the sum over the inner index. -/
theorem dot_eq_sum (p : Nat) (A B : Mat) (i j : Nat) :
    dot p A B i j = ((∑ x ∈ Finset.range p, (entry A i x).val * (entry B x j).val : ℕ) : Int) := by
  push_cast
  rfl

theorem entry_product (m p k : Nat) (A B : Mat) {i j : Nat} (hi : i < m) (hj : j < k) :
    (entry (product m p k A B) i j).val = (∑ x ∈ Finset.range p, (entry A i x).val * (entry B x j).val) % 29 := by
  rw [product, entry_matOf _ _ _ hi hj, mod29_val_toNat, dot_eq_sum]
  omega

/-- The product over Z/29Z (R172). -/
theorem toMatrix_product (m p k : Nat) (A B : Mat) :
    toMatrix m k (product m p k A B) = toMatrix m p A * toMatrix p k B := by
  ext i j
  rw [toMatrix, product, entry_matOf _ _ _ i.isLt j.isLt, cast_mod29, dot_eq_sum, Matrix.mul_apply]
  push_cast
  rw [Finset.sum_range]
  rfl

end Sys2Proof.Machine
end

