-- ==== Sys2Proof/Laws/Step.lean ====
section
/-! SUPPORT. What a command can change, what a bus access can do and what a step can do, each said once: if it answers next t, then
one of these cases holds. -/

namespace Sys2Proof.Machine

/-- Two outcomes that go on answer the same state. -/
theorem next_inj {s t : State} (h : (Host.Outcome.next s : Host.Outcome State Fault Refusal) = .next t) : s = t := by
  cases h
  rfl

/-- The end of a scalar command, as a record. -/
theorem completeScalar_eq (r : Residue) (c : CompletionCode) (s : State) :
    completeScalar r c s = .next { s with res := r, status := s.status.completed c } := rfl

/-- A completion with OK clears BUSY, sets DONE and ECODE and leaves ERR as it was (R191). -/
theorem completed_ok (t : Status) :
    t.completed .ok = { t with busy := false, done := true, ecode := .ok } := by
  simp [Status.completed]

/-- A completion with any other code also sets ERR (R191). -/
theorem completed_not_ok (t : Status) {c : CompletionCode} (h : c ≠ .ok) :
    t.completed c = { t with busy := false, done := true, err := true, ecode := c } := by
  have : (c != .ok) = true := by simpa using h
  simp [Status.completed, this]

/-- The cases of MINV (R137). -/
theorem execMinv_cases (s : State) :
    (operandA s = 0 ∧ execMinv s = completeScalar 0 .noinv s) ∨
      (operandA s ≠ 0 ∧ ∃ x, inv29 (operandA s) = some x ∧ execMinv s = completeScalar x .ok s) := by
  unfold execMinv
  rcases inv29_spec (operandA s) with ⟨h, h'⟩ | ⟨h, x, h', -⟩
  · left
    rw [h']
    exact ⟨h, rfl⟩
  · right
    rw [h']
    exact ⟨h, x, rfl, rfl⟩

/-- The cases of MATINV (R151, R158, R159). -/
theorem execMatinv_cases (sd sa : SlotNo) (s : State) :
    ((rows s sa = 0 ∨ rows s sa ≠ cols s sa) ∧
        execMatinv sd sa s = .next (complete .dim (setSentinel sd s))) ∨
      (rows s sa ≠ 0 ∧ rows s sa = cols s sa ∧
        ((invert s.lpivot (rows s sa) (value s sa) = none ∧
            execMatinv sd sa s = .next (complete .singular (setSentinel sd s))) ∨
          ∃ X, invert s.lpivot (rows s sa) (value s sa) = some X ∧
            execMatinv sd sa s = .next (complete .ok (writeResult sd (rows s sa) (rows s sa) X s)))) := by
  unfold execMatinv
  split
  · next h => exact .inl ⟨h, rfl⟩
  · next h =>
    push Not at h
    refine .inr ⟨h.1, h.2, ?_⟩
    split
    · next h' => exact .inl ⟨h', rfl⟩
    · next X h' => exact .inr ⟨X, h', rfl⟩

/-- The cases of MATMUL (R171–R173). -/
theorem execMatmul_cases (sd sa sb : SlotNo) (s : State) :
    ((rows s sa = 0 ∨ rows s sb = 0 ∨ cols s sa ≠ rows s sb) ∧
        execMatmul sd sa sb s = .next (complete .dim (setSentinel sd s))) ∨
      (rows s sa ≠ 0 ∧ rows s sb ≠ 0 ∧ cols s sa = rows s sb ∧
        execMatmul sd sa sb s = .next (complete .ok (writeResult sd (rows s sa) (cols s sb)
          (product (rows s sa) (cols s sa) (cols s sb) (value s sa) (value s sb)) s))) := by
  unfold execMatmul
  split
  · next h => exact .inl ⟨h, rfl⟩
  · next h =>
    push Not at h
    exact .inr ⟨h.1, h.2.1, h.2.2, rfl⟩

/-- What a command writes apart from its end (R133–R137, R158, R159, R173): RES, or one slot. -/
theorem exec_cases {i : Instr} {s t : State} (h : exec i s = .next t) :
    ∃ c, (∃ r, t = complete c (setRes r s)) ∨ (∃ sl, t = complete c (setSentinel sl s)) ∨
      (∃ sl sa sb X, c = .ok ∧ rows s sa ≠ 0 ∧ rows s sb ≠ 0 ∧
        t = complete c (writeResult sl (rows s sa) (cols s sb) X s)) := by
  cases i with
  | mred => exact ⟨_, .inl ⟨_, (next_inj h).symm⟩⟩
  | madd => exact ⟨_, .inl ⟨_, (next_inj h).symm⟩⟩
  | msub => exact ⟨_, .inl ⟨_, (next_inj h).symm⟩⟩
  | mmul => exact ⟨_, .inl ⟨_, (next_inj h).symm⟩⟩
  | minv =>
    rcases execMinv_cases s with ⟨-, h'⟩ | ⟨-, x, -, h'⟩
    · exact ⟨_, .inl ⟨_, (next_inj (h'.symm.trans h)).symm⟩⟩
    · exact ⟨_, .inl ⟨_, (next_inj (h'.symm.trans h)).symm⟩⟩
  | matinv sd sa =>
    rcases execMatinv_cases sd sa s with ⟨-, h'⟩ | ⟨h0, h1, ⟨-, h'⟩ | ⟨X, -, h'⟩⟩
    · exact ⟨_, .inr (.inl ⟨_, (next_inj (h'.symm.trans h)).symm⟩)⟩
    · exact ⟨_, .inr (.inl ⟨_, (next_inj (h'.symm.trans h)).symm⟩)⟩
    · refine ⟨_, .inr (.inr ⟨sd, sa, sa, X, rfl, h0, h0, ?_⟩)⟩
      rw [← h1]
      exact (next_inj (h'.symm.trans h)).symm
  | matmul sd sa sb =>
    rcases execMatmul_cases sd sa sb s with ⟨-, h'⟩ | ⟨h0, h1, -, h'⟩
    · exact ⟨_, .inr (.inl ⟨_, (next_inj (h'.symm.trans h)).symm⟩)⟩
    · exact ⟨_, .inr (.inr ⟨sd, sa, sb, _, rfl, h0, h1, (next_inj (h'.symm.trans h)).symm⟩)⟩

/-- Every command answers a next state (R191): none stops, whatever its operands are. -/
theorem exec_answers (i : Instr) (s : State) : ∃ t, exec i s = .next t := by
  cases i with
  | mred => exact ⟨_, rfl⟩
  | madd => exact ⟨_, rfl⟩
  | msub => exact ⟨_, rfl⟩
  | mmul => exact ⟨_, rfl⟩
  | minv => rcases execMinv_cases s with ⟨-, h⟩ | ⟨-, x, -, h⟩ <;> exact ⟨_, h⟩
  | matinv sd sa =>
    rcases execMatinv_cases sd sa s with ⟨-, h⟩ | ⟨-, -, ⟨-, h⟩ | ⟨X, -, h⟩⟩ <;> exact ⟨_, h⟩
  | matmul sd sa sb => rcases execMatmul_cases sd sa sb s with ⟨-, h⟩ | ⟨-, -, -, h⟩ <;> exact ⟨_, h⟩

/-- What no command changes, and how every command ends (R191). -/
theorem exec_frame {i : Instr} {s t : State} (h : exec i s = .next t) :
    t.params = s.params ∧ t.ctrl = s.ctrl ∧ t.cmd = s.cmd ∧ t.opa = s.opa ∧ t.opb = s.opb ∧
      t.lpivot = s.lpivot ∧ t.inbox = s.inbox ∧ t.reads = s.reads ∧ t.busyPolls = s.busyPolls ∧
      ∃ c, t.status = s.status.completed c := by
  obtain ⟨c, ⟨r, rfl⟩ | ⟨sl, rfl⟩ | ⟨sl, sa, sb, X, -, -, -, rfl⟩⟩ := exec_cases h
  · exact ⟨rfl, rfl, rfl, rfl, rfl, rfl, rfl, rfl, rfl, c, rfl⟩
  · simp
  · simp

/-- Two states with the same operands: what a command reads (R104, R150, R170). -/
def SameOperands (s t : State) : Prop :=
  s.params = t.params ∧ s.opa = t.opa ∧ s.opb = t.opb ∧ s.res = t.res ∧ s.dim = t.dim ∧ s.mem = t.mem ∧
    s.lpivot = t.lpivot

theorem SameOperands.value {s t : State} (h : SameOperands s t) (sl : SlotNo) : value s sl = value t sl := by
  obtain ⟨h1, -, -, -, h2, h3, -⟩ := h
  simp only [Machine.value, Machine.rows, Machine.cols, h2]
  exact matOf_congr _ _ _ _ fun i j _ _ => by simp only [elem, elemByte, h1, h3]

theorem SameOperands.rows {s t : State} (h : SameOperands s t) (sl : SlotNo) : rows s sl = rows t sl := by
  simp only [Machine.rows, h.2.2.2.2.1]

theorem SameOperands.cols {s t : State} (h : SameOperands s t) (sl : SlotNo) : cols s sl = cols t sl := by
  simp only [Machine.cols, h.2.2.2.2.1]

theorem SameOperands.writeResult {s t : State} (h : SameOperands s t) (sl : SlotNo) (m k : Nat) (X : Mat)
    (c : CompletionCode) :
    SameOperands (complete c (writeResult sl m k X s)) (complete c (writeResult sl m k X t)) := by
  obtain ⟨h1, h2, h3, h4, h5, h6, h7⟩ := h
  refine ⟨by simpa, by simpa, by simpa, by simpa, by simp [h5], ?_, by simpa⟩
  exact setElems_mem_congr (s := setDim sl _ s) (t := setDim sl _ t) h1 h6 sl _

theorem SameOperands.setSentinel {s t : State} (h : SameOperands s t) (sl : SlotNo) (c : CompletionCode) :
    SameOperands (complete c (setSentinel sl s)) (complete c (setSentinel sl t)) := by
  obtain ⟨h1, h2, h3, h4, h5, h6, h7⟩ := h
  refine ⟨by simpa, by simpa, by simpa, by simpa, by simp [h5], ?_, by simpa⟩
  exact setElems_mem_congr (s := setDim sl _ s) (t := setDim sl _ t) h1 h6 sl _

/-- A command's result depends on its operands alone (R47, R138, R191). -/
theorem exec_congr (i : Instr) {s t s' t' : State} (h : SameOperands s t) (hs : exec i s = .next s')
    (ht : exec i t = .next t') : SameOperands s' t' ∧ s'.status.ecode = t'.status.ecode := by
  have hA : operandA s = operandA t := by simp only [operandA, h.2.1]
  have hB : operandB s = operandB t := by simp only [operandB, h.2.2.1]
  have scalar : ∀ r c, completeScalar r c s = .next s' → completeScalar r c t = .next t' →
      SameOperands s' t' ∧ s'.status.ecode = t'.status.ecode := fun r c e1 e2 => by
    obtain rfl := next_inj e1
    obtain rfl := next_inj e2
    exact ⟨⟨h.1, h.2.1, h.2.2.1, rfl, h.2.2.2.2.1, h.2.2.2.2.2.1, h.2.2.2.2.2.2⟩, rfl⟩
  cases i with
  | mred => exact scalar _ _ hs (by rw [hA]; exact ht)
  | madd => exact scalar _ _ hs (by rw [hA, hB]; exact ht)
  | msub => exact scalar _ _ hs (by rw [hA, hB]; exact ht)
  | mmul => exact scalar _ _ hs (by rw [hA, hB]; exact ht)
  | minv =>
    simp only [exec, execMinv, hA] at hs ht
    split at hs
    · next x hx =>
      rw [hx] at ht
      exact scalar _ _ hs ht
    · next hx =>
      rw [hx] at ht
      exact scalar _ _ hs ht
  | matinv sd sa =>
    simp only [exec, execMatinv, h.rows, h.cols, h.value, h.2.2.2.2.2.2] at hs ht
    split at hs
    · next hc =>
      rw [if_pos hc] at ht
      obtain rfl := next_inj hs
      obtain rfl := next_inj ht
      exact ⟨h.setSentinel sd _, by simp⟩
    · next hc =>
      rw [if_neg hc] at ht
      split at hs
      · next hx =>
        rw [hx] at ht
        obtain rfl := next_inj hs
        obtain rfl := next_inj ht
        exact ⟨h.setSentinel sd _, by simp⟩
      · next X hx =>
        rw [hx] at ht
        obtain rfl := next_inj hs
        obtain rfl := next_inj ht
        exact ⟨h.writeResult sd _ _ _ _, by simp⟩
  | matmul sd sa sb =>
    simp only [exec, execMatmul, h.rows, h.cols, h.value] at hs ht
    split at hs
    · next hc =>
      rw [if_pos hc] at ht
      obtain rfl := next_inj hs
      obtain rfl := next_inj ht
      exact ⟨h.setSentinel sd _, by simp⟩
    · next hc =>
      rw [if_neg hc] at ht
      obtain rfl := next_inj hs
      obtain rfl := next_inj ht
      exact ⟨h.writeResult sd _ _ _ _, by simp⟩

/-- A read access that is not blocked changes nothing; a blocked one returns 0 and sets BUSYACC (R75, R79). -/
theorem memRead_cases (off : Offset) (s : State) :
    ((target s.params off).readBlocks = true ∧ s.status.busy = true ∧ memRead off s = (0, blockAccess s)) ∨
      (((target s.params off).readBlocks = false ∨ s.status.busy = false) ∧
        memRead off s = (readTarget s (target s.params off), s)) := by
  unfold memRead
  split
  · next h =>
    rw [Bool.and_eq_true] at h
    exact .inl ⟨h.1, h.2, rfl⟩
  · next h =>
    right
    rw [Bool.and_eq_true] at h
    refine ⟨?_, rfl⟩
    cases h1 : (target s.params off).readBlocks <;> cases h2 : s.status.busy <;> simp_all

/-- A write access that is not blocked does what its target says; a blocked one only sets BUSYACC (R76). -/
theorem memWrite_cases (off : Offset) (v : Word) (s : State) :
    ((target s.params off).writeBlocks = true ∧ s.status.busy = true ∧ memWrite off v s = blockAccess s) ∨
      (((target s.params off).writeBlocks = false ∨ s.status.busy = false) ∧
        memWrite off v s = writeTarget v s (target s.params off)) := by
  unfold memWrite
  split
  · next h =>
    rw [Bool.and_eq_true] at h
    exact .inl ⟨h.1, h.2, rfl⟩
  · next h =>
    right
    rw [Bool.and_eq_true] at h
    refine ⟨?_, rfl⟩
    cases h1 : (target s.params off).writeBlocks <;> cases h2 : s.status.busy <;> simp_all

/-- A poll of a WAIT loop changes nothing but the record of what the Host has read (R75, R110). -/
theorem waitPoll_cases (s : State) :
    (s.status.busy = true ∧
        waitPoll s = { s with busyPolls := s.busyPolls ++ [(s.reads.length, s.status.toWord)] }) ∨
      (s.status.busy = false ∧ waitPoll s = { s with reads := s.reads ++ [s.status.toWord] }) := by
  have hr : memRead 0x008 s = (s.status.toWord, s) := rfl
  have hb : s.status.toWord.getLsbD 0 = s.status.busy := by
    rcases s.status with ⟨b, d, e, a, c⟩
    cases b <;> cases d <;> cases e <;> cases a <;> cases c <;> rfl
  unfold waitPoll
  rw [hr, hb]
  cases s.status.busy
  · exact .inr ⟨rfl, rfl⟩
  · exact .inl ⟨rfl, rfl⟩

theorem accessDefined_iff (size : Nat) (off : Offset) :
    accessDefined size off = true ↔ size = 4 ∧ off.toNat % 4 = 0 := by
  simp [accessDefined]

/-- Everything a step that goes on can have done (R5, R75, R76, R191, R220). -/
theorem step_cases {s t : State} (h : step s = .next t) :
    (nextIsEngine s = true ∧ s.status.busy = false ∧ t = { s with inbox := s.inbox.tail }) ∨
    (nextIsEngine s = true ∧ s.status.busy = true ∧
      ((∃ i, decode s.cmd = .ok i ∧ exec i { s with inbox := s.inbox.tail } = .next t) ∨
        ∃ e, decode s.cmd = .error e ∧ t = complete .illegal { s with inbox := s.inbox.tail })) ∨
    (∃ off rest, s.inbox = .host (.read 4 off) :: rest ∧ off.toNat % 4 = 0 ∧
      t = { (memRead off { s with inbox := rest }).2 with
            reads := s.reads ++ [(memRead off { s with inbox := rest }).1] }) ∨
    (∃ off v rest, s.inbox = .host (.write 4 off v) :: rest ∧ off.toNat % 4 = 0 ∧
      t = memWrite off v { s with inbox := rest }) ∨
    (∃ rest, s.inbox = .host .poll :: rest ∧ t = waitPoll { s with inbox := rest }) ∨
    (∃ rest, s.inbox = .reset :: rest ∧ t = resetBlock { s with inbox := rest }) := by
  have turn : ∀ u : State, engineTurn u = .next t → (u.status.busy = false ∧ t = u) ∨
      (u.status.busy = true ∧ ((∃ i, decode u.cmd = .ok i ∧ exec i u = .next t) ∨
        ∃ e, decode u.cmd = .error e ∧ t = complete .illegal u)) := by
    intro u hu
    unfold engineTurn at hu
    split at hu
    · next hb =>
      refine .inr ⟨hb, ?_⟩
      unfold completion at hu
      split at hu
      · next i hi => exact .inl ⟨i, hi, hu⟩
      · next e he => exact .inr ⟨e, he, (next_inj hu).symm⟩
    · next hb => exact .inl ⟨by simpa using hb, (next_inj hu).symm⟩
  unfold step at h
  split at h
  · next hin =>
    have he : nextIsEngine s = true := by simp [nextIsEngine, hin]
    have hs : s = { s with inbox := s.inbox.tail } := by rw [hin, List.tail_nil, ← hin]
    rw [hs] at h
    rcases turn _ h with ⟨hb, ht⟩ | ⟨hb, ht⟩
    · exact .inl ⟨he, hb, ht⟩
    · exact .inr (.inl ⟨he, hb, ht⟩)
  · next a rest hin =>
    cases a with
    | read size off =>
      simp only [hostAccess] at h
      split at h
      · next hd =>
        obtain ⟨rfl, ha⟩ := (accessDefined_iff size off).mp hd
        exact .inr (.inr (.inl ⟨off, rest, hin, ha, (next_inj h).symm⟩))
      · cases h
    | write size off v =>
      simp only [hostAccess] at h
      split at h
      · next hd =>
        obtain ⟨rfl, ha⟩ := (accessDefined_iff size off).mp hd
        exact .inr (.inr (.inr (.inl ⟨off, v, rest, hin, ha, (next_inj h).symm⟩)))
      · cases h
    | poll => exact .inr (.inr (.inr (.inr (.inl ⟨rest, hin, (next_inj h).symm⟩))))
  · next rest hin =>
    have he : nextIsEngine s = true := by simp [nextIsEngine, hin]
    have ht : s.inbox.tail = rest := by rw [hin]; rfl
    rw [ht]
    rcases turn _ h with ⟨hb, ht⟩ | ⟨hb, ht⟩
    · exact .inl ⟨he, hb, ht⟩
    · exact .inr (.inl ⟨he, hb, ht⟩)
  · next rest hin => exact .inr (.inr (.inr (.inr (.inr ⟨rest, hin, (next_inj h).symm⟩))))

/-- A DIM write always leaves a legal shape (R39, R40). -/
theorem dimOfWord_legal (p : Params) (v : Word) : (dimOfWord p v).legal p = true := by
  unfold dimOfWord
  split
  · assumption
  · simp [Dim.legal]

end Sys2Proof.Machine
end

