-- ==== Sys2Proof/Laws/Bus.lean ====
section
/-! SUPPORT. The Host's accesses as single steps: what a hostRead and a hostWrite of an aligned offset are, and what the named
offsets of the register map decode to (20_memory.md R71, R75, R76). -/

namespace Sys2Proof.Machine

/-- A write of an aligned word is one step that goes on with memWrite (R76). -/
theorem hostWrite_eq (off : Offset) (v : Word) (s : State) (ha : off.toNat % 4 = 0) :
    hostWrite off v s = .next (memWrite off v s) := by
  simp [hostWrite, step, hostAccess, accessDefined, ha]

/-- A read of an aligned word is one step that goes on with memRead and gives the Host its value (R75). -/
theorem hostRead_eq (off : Offset) (s : State) (ha : off.toNat % 4 = 0) :
    hostRead off s = .next { (memRead off s).2 with reads := s.reads ++ [(memRead off s).1] } := by
  simp [hostRead, step, hostAccess, accessDefined, ha]

/-- A poll of a WAIT loop is one step that goes on with waitPoll (R110). -/
theorem hostPoll_eq (s : State) : hostPoll s = .next (waitPoll s) := rfl

/-- The Engine's step is its turn (R191). -/
theorem engineStep_eq (s : State) : engineStep s = engineTurn s := rfl

section
variable (p : Params)

@[simp] theorem target_id : target p 0x000 = .id := rfl
@[simp] theorem target_ctrl : target p 0x004 = .ctrl := rfl
@[simp] theorem target_status : target p 0x008 = .status := rfl
@[simp] theorem target_cmd : target p 0x00C = .cmd := rfl
@[simp] theorem target_opa : target p 0x010 = .opa := rfl
@[simp] theorem target_opb : target p 0x014 = .opb := rfl
@[simp] theorem target_res : target p 0x018 = .res := rfl

@[simp] theorem target_dimOffset (sl : SlotNo) : target p (dimOffset sl) = .dim sl := by
  fin_cases sl <;> rfl

@[simp] theorem dimOffset_aligned (sl : SlotNo) : (dimOffset sl).toNat % 4 = 0 := by
  fin_cases sl <;> rfl

theorem target_elemOffset (hp : p.Legal) (sl : SlotNo) {i j : Nat} (hi : i < p.nmax) (hj : j < p.cmax) :
    target p (elemOffset p sl i j) = .elem sl i j := target_elemAddr hp sl hi hj

theorem elemOffset_aligned (hp : p.Legal) (sl : SlotNo) {i j : Nat} (hi : i < p.nmax) (hj : j < p.cmax) :
    (elemOffset p sl i j).toNat % 4 = 0 := by
  unfold elemOffset
  rw [elemAddr_toNat hp sl hi hj]
  unfold elemAddr wbase
  omega

/-- The reserved register offsets hold nothing (R71, R74). -/
theorem registerTarget_reserved (off : Offset) (h : off.toNat = 0x01C ∨ 0x030 ≤ off.toNat) :
    registerTarget off = .empty := by
  have ne : ∀ k : Offset, (k.toNat < 0x01C ∨ (0x01C < k.toNat ∧ k.toNat < 0x030)) → off ≠ k := by
    rintro k hk rfl
    omega
  unfold registerTarget
  rw [if_neg (ne _ (by decide)), if_neg (ne _ (by decide)), if_neg (ne _ (by decide)), if_neg (ne _ (by decide)),
    if_neg (ne _ (by decide)), if_neg (ne _ (by decide)), if_neg (ne _ (by decide)), if_neg (ne _ (by decide)),
    if_neg (ne _ (by decide)), if_neg (ne _ (by decide)), if_neg (ne _ (by decide))]

/-- Only offset 0x00C names CMD (R71). -/
theorem offset_of_target_cmd (off : Offset) (h : target p off = .cmd) : off = 0x00C := by
  by_contra hne
  revert h
  unfold target
  refine ite_ne_of_ne ?_ (ite_ne_of_ne ?_ nofun)
  · unfold registerTarget
    rw [if_neg hne]
    repeat refine ite_ne_of_ne nofun ?_
    nofun
  · unfold windowTarget
    exact ite_ne_of_ne nofun nofun

/-- Only offset 0x004 names CTRL (R71). -/
theorem offset_of_target_ctrl (off : Offset) (h : target p off = .ctrl) : off = 0x004 := by
  by_contra hne
  revert h
  unfold target
  refine ite_ne_of_ne ?_ (ite_ne_of_ne ?_ nofun)
  · unfold registerTarget
    rw [if_neg hne]
    repeat refine ite_ne_of_ne nofun ?_
    nofun
  · unfold windowTarget
    exact ite_ne_of_ne nofun nofun

/-- Only offset 0x008 names STATUS (R71). -/
theorem offset_of_target_status (off : Offset) (h : target p off = .status) : off = 0x008 := by
  by_contra hne
  revert h
  unfold target
  refine ite_ne_of_ne ?_ (ite_ne_of_ne ?_ nofun)
  · unfold registerTarget
    rw [if_neg hne]
    repeat refine ite_ne_of_ne nofun ?_
    nofun
  · unfold windowTarget
    exact ite_ne_of_ne nofun nofun

end

/-- Everything a write access can do (R76, R190, R199): it is blocked; it accepts a command; it clears STATUS bits; it writes CTRL;
or it writes operands, shapes and storage, and nothing at all while BUSY = 1. -/
theorem memWrite_effects (off : Offset) (v : Word) (s : State) :
    ((target s.params off).writeBlocks = true ∧ s.status.busy = true ∧ memWrite off v s = blockAccess s) ∨
      (off = 0x00C ∧ s.status.busy = false ∧ memWrite off v s = accept v s) ∨
      (off = 0x008 ∧ memWrite off v s = { s with status := s.status.writeOneToClear v }) ∨
      (off = 0x004 ∧ memWrite off v s = { s with ctrl := ctrlOfWord v }) ∨
      (off ≠ 0x00C ∧ off ≠ 0x008 ∧ off ≠ 0x004 ∧ (s.status.busy = true → memWrite off v s = s) ∧
        ((target s.params off).writeBlocks = false ∨ s.status.busy = false) ∧
        ∃ a b d m, memWrite off v s = { s with opa := a, opb := b, dim := d, mem := m }) := by
  have n1 : off = 0x00C → target s.params off = .cmd := by rintro rfl; rfl
  have n2 : off = 0x008 → target s.params off = .status := by rintro rfl; rfl
  have n3 : off = 0x004 → target s.params off = .ctrl := by rintro rfl; rfl
  rcases memWrite_cases off v s with h | ⟨hnb, e⟩
  · exact .inl h
  rw [e]
  rcases ht : target s.params off with _ | _ | _ | _ | _ | _ | _ | sl | ⟨sl, i, j⟩ | _ <;> rw [ht] at n1 n2 n3 hnb
  case ctrl => exact .inr (.inr (.inr (.inl ⟨offset_of_target_ctrl _ _ ht, rfl⟩)))
  case status => exact .inr (.inr (.inl ⟨offset_of_target_status _ _ ht, rfl⟩))
  case cmd => exact .inr (.inl ⟨offset_of_target_cmd _ _ ht, by simpa [Target.writeBlocks] using hnb, rfl⟩)
  all_goals
    refine .inr (.inr (.inr (.inr ⟨(by intro h; cases n1 h), (by intro h; cases n2 h), (by intro h; cases n3 h), ?_,
      hnb, _, _, _, _, rfl⟩)))
    first
      | exact fun _ => rfl
      | (intro hb; rw [hb] at hnb; simp [Target.writeBlocks] at hnb)

/-- The word of ID as a number (R31). -/
theorem idWord_toNat (p : Params) (hp : p.Legal) :
    (idWord p).toNat = 0x01 * 2 ^ 24 + p.cmax * 2 ^ 16 + p.nmax * 2 ^ 8 + 29 := by
  have h := hp.2
  unfold idWord Config.version
  show ((1#8 ++ BitVec.ofNat 8 p.cmax ++ BitVec.ofNat 8 p.nmax ++ 29#8 : BitVec 32)).toNat = _
  rw [append_toNat, append_toNat, append_toNat, BitVec.toNat_ofNat, BitVec.toNat_ofNat, BitVec.toNat_ofNat,
    BitVec.toNat_ofNat]
  omega

/-- The word of a DIM register as a number (R39). -/
theorem dimWord_toNat (d : Dim) : d.toWord.toNat = d.rows.toNat + 256 * d.cols.toNat := by
  have := d.rows.isLt
  have := d.cols.isLt
  show ((0#16 ++ d.cols ++ d.rows : BitVec 32)).toNat = _
  rw [append_toNat, append_toNat, BitVec.toNat_ofNat]
  omega

end Sys2Proof.Machine
end

