-- ==== Sys2Proof/Laws/Inverter.lean ====
section
/-! SUPPORT. What each step of the inverter does (41_matrix_inverter.md R153–R157): every row operation is a multiplication from
the left by a matrix with nonzero determinant, done to W and to ACC alike; a column once cleared stays a unit vector; and a
column that fails under row swapping leaves W with determinant 0. -/

namespace Sys2Proof.Machine

variable {n : Nat}

/-- One pair (W, ACC) comes from another by row operations: one matrix with nonzero determinant, applied to both. -/
def RowReachable (n : Nat) (x y : Augmented) : Prop :=
  ∃ U : Matrix (Fin n) (Fin n) (ZMod 29), U.det ≠ 0 ∧
    toMatrix n n y.w = U * toMatrix n n x.w ∧ toMatrix n n y.acc = U * toMatrix n n x.acc

/-- Z/29Z is a field (R2: 29 is prime). -/
theorem prime_29 : Fact (Nat.Prime 29) := ⟨by norm_num⟩

theorem RowReachable.refl (x : Augmented) : RowReachable n x x := by
  have := prime_29
  exact ⟨1, by simp, by simp, by simp⟩

theorem RowReachable.trans {x y z : Augmented} (h : RowReachable n x y) (h' : RowReachable n y z) :
    RowReachable n x z := by
  have := prime_29
  obtain ⟨U, hU, hw, ha⟩ := h
  obtain ⟨V, hV, hw', ha'⟩ := h'
  exact ⟨V * U, by simp [Matrix.det_mul, hU, hV], by rw [hw', hw, Matrix.mul_assoc], by rw [ha', ha, Matrix.mul_assoc]⟩

theorem toMatrix_swapRows {j k : Nat} (hj : j < n) (hk : k < n) (A : Mat) :
    toMatrix n n (swapRows n j k A) =
      (Equiv.swap (⟨j, hj⟩ : Fin n) ⟨k, hk⟩).permMatrix (ZMod 29) * toMatrix n n A := by
  rw [PEquiv.toMatrix_toPEquiv_mul]
  ext r c
  rw [toMatrix, swapRows, entry_matOf _ _ _ r.isLt c.isLt, Matrix.submatrix_apply, toMatrix]
  congr 3
  rw [Equiv.swap_apply_def]
  simp only [Fin.ext_iff]
  split_ifs <;> rfl

theorem toMatrix_scaleRow (j : Nat) (p : Residue) (A : Mat) :
    toMatrix n n (scaleRow n j p A) =
      Matrix.diagonal (fun r : Fin n => if r.val = j then ((p.val : ℕ) : ZMod 29) else 1) * toMatrix n n A := by
  ext r c
  rw [Matrix.diagonal_mul, toMatrix, scaleRow, entry_matOf _ _ _ r.isLt c.isLt, toMatrix]
  by_cases h : r.val = j
  · simp [h, mul_comm]
  · simp [h]

theorem toMatrix_subtractRow {j k : Nat} (hj : j < n) (hk : k < n) (f : Residue) (A : Mat) :
    toMatrix n n (subtractRow n j k f A) =
      Matrix.transvection (⟨k, hk⟩ : Fin n) ⟨j, hj⟩ (-((f.val : ℕ) : ZMod 29)) * toMatrix n n A := by
  ext r c
  by_cases h : r = ⟨k, hk⟩
  · subst h
    rw [Matrix.transvection_mul_apply_same, toMatrix, subtractRow, entry_matOf _ _ _ hk c.isLt, toMatrix]
    simp [toMatrix, sub_eq_add_neg]
  · have h' : r.val ≠ k := fun e => h (Fin.ext e)
    rw [Matrix.transvection_mul_apply_of_ne _ _ _ _ h, toMatrix, subtractRow, entry_matOf _ _ _ r.isLt c.isLt]
    simp [h', toMatrix]

theorem rowReachable_swap {j k : Nat} (hj : j < n) (hk : k < n) (x : Augmented) :
    RowReachable n x ⟨swapRows n j k x.w, swapRows n j k x.acc⟩ := by
  have := prime_29
  refine ⟨_, ?_, toMatrix_swapRows hj hk _, toMatrix_swapRows hj hk _⟩
  rw [Matrix.det_permutation]
  rcases Int.units_eq_one_or (Equiv.Perm.sign (Equiv.swap (⟨j, hj⟩ : Fin n) ⟨k, hk⟩)) with h | h <;> simp [h]

theorem rowReachable_scale (j : Nat) {p : Residue} (hp : p ≠ 0) (x : Augmented) :
    RowReachable n x (scaleStep n j p x) := by
  have := prime_29
  refine ⟨_, ?_, toMatrix_scaleRow j p _, toMatrix_scaleRow j p _⟩
  rw [Matrix.det_diagonal, Finset.prod_ne_zero_iff]
  intro r _
  split
  · rwa [ne_eq, cast_residue_eq_zero]
  · exact one_ne_zero

theorem rowReachable_eliminateRow {j k : Nat} (hj : j < n) (hk : k < n) (x : Augmented) :
    RowReachable n x (eliminateRow n j k x) := by
  have := prime_29
  unfold eliminateRow
  split
  · exact RowReachable.refl x
  · next h =>
    refine ⟨_, ?_, toMatrix_subtractRow hj hk _ _, toMatrix_subtractRow hj hk _ _⟩
    rw [Matrix.det_transvection_of_ne]
    · exact one_ne_zero
    · intro e
      exact h (.inl (Fin.ext_iff.mp e))

theorem rowReachable_eliminate {j : Nat} (hj : j < n) (x : Augmented) :
    RowReachable n x (eliminateStep n j x) := by
  unfold eliminateStep
  have hl : ∀ k ∈ List.range n, k < n := fun k hk => List.mem_range.mp hk
  revert hl
  generalize List.range n = l
  intro hl
  induction l generalizing x with
  | nil => exact RowReachable.refl x
  | cons k l ih =>
    exact (rowReachable_eliminateRow hj (hl k (by simp)) x).trans
      (ih (eliminateRow n j k x) fun i hi => hl i (List.mem_cons_of_mem _ hi))

/-- The row found by the search of R154. -/
theorem lowerPivot_some {j k : Nat} {W : Mat} (h : lowerPivot n j W = some k) :
    j < k ∧ k < n ∧ entry W k j ≠ 0 := by
  unfold lowerPivot at h
  have h1 := List.find?_some h
  have h2 := List.mem_of_find?_eq_some h
  simp only [Bool.and_eq_true, decide_eq_true_eq, bne_iff_ne, ne_eq] at h1
  exact ⟨h1.1, List.mem_range.mp h2, h1.2⟩

theorem lowerPivot_none {j : Nat} {W : Mat} (h : lowerPivot n j W = none) :
    ∀ r, j < r → r < n → entry W r j = 0 := by
  unfold lowerPivot at h
  rw [List.find?_eq_none] at h
  intro r h1 h2
  have := h r (List.mem_range.mpr h2)
  simpa [h1] using this

/-- What step 1 does when it finds a pivot (R153, R154). -/
theorem pivotStep_some {lp : Bool} {j : Nat} {x y : Augmented} (h : pivotStep lp n j x = some y) :
    (entry x.w j j ≠ 0 ∧ y = x) ∨
      (entry x.w j j = 0 ∧ lp = true ∧ ∃ k, j < k ∧ k < n ∧ entry x.w k j ≠ 0 ∧
        y = ⟨swapRows n j k x.w, swapRows n j k x.acc⟩) := by
  unfold pivotStep at h
  split at h
  · next h0 =>
    cases h
    exact .inl ⟨h0, rfl⟩
  · next h0 =>
    split at h
    · cases h
    · next hl =>
      split at h
      · next k hk =>
        cases h
        obtain ⟨h1, h2, h3⟩ := lowerPivot_some hk
        exact .inr ⟨by simpa using h0, by simpa using hl, k, h1, h2, h3, rfl⟩
      · cases h

/-- What a failure of step 1 means (R153, R154). -/
theorem pivotStep_none {lp : Bool} {j : Nat} {x : Augmented} (h : pivotStep lp n j x = none) :
    entry x.w j j = 0 ∧ (lp = true → ∀ r, j < r → r < n → entry x.w r j = 0) := by
  unfold pivotStep at h
  split at h
  · cases h
  · next h0 =>
    refine ⟨by simpa using h0, fun hl => ?_⟩
    subst hl
    simp only [Bool.not_true, Bool.false_eq_true, if_false] at h
    split at h
    · cases h
    · next hk => exact lowerPivot_none hk

theorem pivotStep_pivot_ne {lp : Bool} {j : Nat} (hj : j < n) {x y : Augmented} (h : pivotStep lp n j x = some y) :
    entry y.w j j ≠ 0 := by
  rcases pivotStep_some h with ⟨h0, rfl⟩ | ⟨-, -, k, h1, h2, h3, rfl⟩
  · exact h0
  · rw [swapRows, entry_matOf _ _ _ hj hj, if_pos rfl]
    exact h3

theorem rowReachable_pivotStep {lp : Bool} {j : Nat} (hj : j < n) {x y : Augmented}
    (h : pivotStep lp n j x = some y) : RowReachable n x y := by
  rcases pivotStep_some h with ⟨-, rfl⟩ | ⟨-, -, k, -, h2, -, rfl⟩
  · exact RowReachable.refl _
  · exact rowReachable_swap hj h2 x

theorem sub29_mul29_zero (x y : Residue) : sub29 x (mul29 0 y) = x := by
  rw [← cast_residue_inj]
  simp

theorem sub29_zero_mul29 (x f : Residue) : sub29 x (mul29 f 0) = x := by
  rw [← cast_residue_inj]
  simp

/-- W after the rows of a list without repeats have been eliminated (R156). -/
theorem foldl_eliminateRow_entry {j : Nat} (hj : j < n) (l : List Nat) (hl : ∀ k ∈ l, k < n) (hd : l.Nodup)
    (x : Augmented) {r c : Nat} (hr : r < n) (hc : c < n) :
    entry (l.foldl (fun y k => eliminateRow n j k y) x).w r c =
      if r ∈ l ∧ r ≠ j then sub29 (entry x.w r c) (mul29 (entry x.w r j) (entry x.w j c)) else entry x.w r c := by
  induction l generalizing x with
  | nil => simp
  | cons k l ih =>
    obtain ⟨hk, hd⟩ := List.nodup_cons.mp hd
    have hstep : ∀ r' c', r' < n → c' < n → entry (eliminateRow n j k x).w r' c' =
        if r' = k ∧ k ≠ j then sub29 (entry x.w k c') (mul29 (entry x.w k j) (entry x.w j c')) else entry x.w r' c' := by
      intro r' c' hr' hc'
      unfold eliminateRow
      split
      · next h =>
        rcases h with rfl | h
        · simp
        · by_cases he : r' = k ∧ k ≠ j
          · rw [if_pos he, h, sub29_mul29_zero, he.1]
          · rw [if_neg he]
      · next h =>
        push Not at h
        rw [subtractRow, entry_matOf _ _ _ hr' hc']
        simp [h.1]
    rw [List.foldl_cons, ih (fun i hi => hl i (List.mem_cons_of_mem _ hi)) hd,
      hstep r c hr hc, hstep r j hr hj, hstep j c hj hc]
    by_cases hrk : r = k
    · subst hrk
      by_cases hrj : r = j
      · subst hrj
        simp
      · simp [hk, hrj]
    · by_cases hrj : r = j
      · subst hrj
        simp [hrk]
      · have hjk : ¬(j = k ∧ k ≠ j) := fun h => h.2 h.1.symm
        simp [hrk, hrj, hjk]

/-- W after step 3 (R156). -/
theorem eliminateStep_entry {j : Nat} (hj : j < n) (x : Augmented) {r c : Nat} (hr : r < n) (hc : c < n) :
    entry (eliminateStep n j x).w r c =
      if r ≠ j then sub29 (entry x.w r c) (mul29 (entry x.w r j) (entry x.w j c)) else entry x.w r c := by
  unfold eliminateStep
  rw [foldl_eliminateRow_entry hj _ (fun k hk => List.mem_range.mp hk) List.nodup_range x hr hc]
  simp [hr]

/-- Column j of W is the unit vector e_j (R157). -/
def ColumnClear (n : Nat) (W : Mat) (j : Nat) : Prop := ∀ r, r < n → entry W r j = if r = j then 1 else 0

/-- What one pivot column does when it does not fail (R152). -/
theorem pivotColumn_some {lp : Bool} {j : Nat} (hj : j < n) {x z : Augmented} (h : pivotColumn lp n j x = some z) :
    RowReachable n x z ∧ ColumnClear n z.w j ∧ ∀ i, i < j → ColumnClear n x.w i → ColumnClear n z.w i := by
  unfold pivotColumn at h
  split at h
  · cases h
  next y hy =>
  split at h
  · cases h
  next p hp =>
  cases h
  have hp0 : p ≠ 0 := by
    rintro rfl
    have h1 := mul29_of_inv29 _ _ hp
    have h2 : mul29 (entry y.w j j) 0 = 0 := by
      rw [← cast_residue_inj]
      simp
    rw [h2] at h1
    exact absurd h1 (by decide)
  have hsc : ∀ r c, r < n → c < n → entry (scaleStep n j p y).w r c =
      if r = j then mul29 (entry y.w j c) p else entry y.w r c := fun r c hr hc => by
    rw [scaleStep, scaleRow, entry_matOf _ _ _ hr hc]
  refine ⟨((rowReachable_pivotStep hj hy).trans (rowReachable_scale j hp0 y)).trans (rowReachable_eliminate hj _),
    fun r hr => ?_, fun i hi hx r hr => ?_⟩
  · rw [eliminateStep_entry hj _ hr hj, hsc r j hr hj, hsc j j hj hj, mul29_of_inv29 _ _ hp]
    by_cases hrj : r = j
    · simp [hrj]
    · rw [if_pos hrj, if_neg hrj, if_neg hrj, if_pos rfl, ← cast_residue_inj]
      simp
  · have hin : i < n := by omega
    have hyc : ColumnClear n y.w i := by
      rcases pivotStep_some hy with ⟨-, rfl⟩ | ⟨-, -, k, h1, h2, -, rfl⟩
      · exact hx
      · intro r' hr'
        rw [swapRows, entry_matOf _ _ _ hr' hin]
        by_cases e1 : r' = j
        · rw [if_pos e1, hx k h2, if_neg (by omega), if_neg (by omega)]
        · by_cases e2 : r' = k
          · rw [if_neg e1, if_pos e2, hx j hj, if_neg (by omega), if_neg (by omega)]
          · rw [if_neg e1, if_neg e2, hx r' hr']
    have hji : entry (scaleStep n j p y).w j i = 0 := by
      rw [hsc j i hj hin, if_pos rfl, hyc j hj, if_neg (by omega), ← cast_residue_inj]
      simp
    rw [eliminateStep_entry hj _ hr hin, hji, sub29_zero_mul29, ite_self, hsc r i hr hin]
    by_cases hrj : r = j
    · rw [if_pos hrj, hyc j hj, hrj, if_neg (by omega), ← cast_residue_inj]
      simp
    · rw [if_neg hrj, hyc r hr]

/-- A pivot column fails only in step 1: the pivot step 1 finds is never 0, so the table has its inverse (R155). -/
theorem pivotColumn_none {lp : Bool} {j : Nat} (hj : j < n) {x : Augmented} (h : pivotColumn lp n j x = none) :
    pivotStep lp n j x = none := by
  unfold pivotColumn at h
  split at h
  · assumption
  next y hy =>
  split at h
  · next hp => exact absurd ((inv29_none_iff _).mp hp) (pivotStep_pivot_ne hj hy)
  · cases h

/-- The pivot columns m, m+1, …, n−1 (R152): if none fails, W and ACC come by row operations and every column of W is clear. -/
theorem pivotColumns_some {lp : Bool} (l : List Nat) (m : Nat) (hl : l = (List.range' m (n - m))) (hm : m ≤ n)
    {x z : Augmented} (hx : ∀ i, i < m → ColumnClear n x.w i) (h : pivotColumns lp n l x = some z) :
    RowReachable n x z ∧ ∀ i, i < n → ColumnClear n z.w i := by
  induction l generalizing m x with
  | nil =>
    cases h
    have : n - m = 0 := by simpa using congrArg List.length hl.symm
    exact ⟨RowReachable.refl _, fun i hi => hx i (by omega)⟩
  | cons j l ih =>
    have hlen : l.length + 1 = n - m := by simpa using congrArg List.length hl
    obtain ⟨d, hd⟩ : ∃ d, n - m = d + 1 := ⟨l.length, by omega⟩
    rw [hd, List.range'_succ] at hl
    injection hl with hj hl
    subst hj
    unfold pivotColumns at h
    split at h
    · cases h
    next y hy =>
    obtain ⟨h1, h2, h3⟩ := pivotColumn_some (by omega) hy
    have hx' : ∀ i, i < j + 1 → ColumnClear n y.w i := fun i hi => by
      rcases Nat.lt_succ_iff_lt_or_eq.mp hi with hi | rfl
      · exact h3 i hi (hx i hi)
      · exact h2
    obtain ⟨g1, g2⟩ := ih (j + 1) (by rw [hl]; congr 1; omega) (by omega) hx' h
    exact ⟨h1.trans g1, g2⟩

/-- A W whose columns before j are clear and whose column j is 0 from row j down has determinant 0. -/
theorem det_eq_zero_of_failed_column {j : Nat} (hj : j < n) (W : Mat) (hc : ∀ i, i < j → ColumnClear n W i)
    (h0 : ∀ r, j ≤ r → r < n → entry W r j = 0) : (toMatrix n n W).det = 0 := by
  have := prime_29
  rw [← Matrix.exists_mulVec_eq_zero_iff]
  let v : Fin n → ZMod 29 := fun i =>
    if i.val = j then 1 else if i.val < j then -((entry W i.val j).val : ZMod 29) else 0
  refine ⟨v, fun hv => ?_, ?_⟩
  · have h1 : v ⟨j, hj⟩ = 0 := by rw [hv]; rfl
    simp [v] at h1
  · funext r
    have hterm : ∀ i : Fin n, toMatrix n n W r i * v i =
        (if i = ⟨j, hj⟩ then ((entry W r.val j).val : ZMod 29) else 0) +
          (if i = r then (if r.val < j then -((entry W r.val j).val : ZMod 29) else 0) else 0) := by
      intro i
      simp only [toMatrix, v, Fin.ext_iff]
      by_cases hij : i.val = j
      · rw [if_pos hij, if_pos hij, hij]
        by_cases hir : j = r.val
        · rw [if_pos hir, if_neg (by omega)]
          simp
        · rw [if_neg hir]
          simp
      · rw [if_neg hij, if_neg hij]
        by_cases hlt : i.val < j
        · rw [if_pos hlt, hc i.val hlt r.val r.isLt]
          by_cases hir : i.val = r.val
          · rw [if_pos hir, if_pos hir.symm, if_pos (by omega), hir]
            simp
          · rw [if_neg hir, if_neg (fun e => hir e.symm)]
            simp
        · rw [if_neg hlt]
          by_cases hir : i.val = r.val
          · rw [if_pos hir, if_neg (by omega)]
            simp
          · rw [if_neg hir]
            simp
    simp only [Matrix.mulVec, dotProduct]
    rw [Finset.sum_congr rfl fun i _ => hterm i, Finset.sum_add_distrib, Finset.sum_ite_eq', Finset.sum_ite_eq']
    simp only [Finset.mem_univ, if_true, Pi.zero_apply]
    by_cases hr : r.val < j
    · simp [hr]
    · simp [hr, h0 r.val (by omega) r.isLt]

/-- If a pivot column fails under row swapping, the matrix the elimination started from has determinant 0. -/
theorem pivotColumns_none (l : List Nat) (m : Nat) (hl : l = (List.range' m (n - m))) (hm : m ≤ n)
    {x : Augmented} (hx : ∀ i, i < m → ColumnClear n x.w i) (h : pivotColumns true n l x = none) :
    (toMatrix n n x.w).det = 0 := by
  have := prime_29
  induction l generalizing m x with
  | nil => cases h
  | cons j l ih =>
    have hlen : l.length + 1 = n - m := by simpa using congrArg List.length hl
    obtain ⟨d, hd⟩ : ∃ d, n - m = d + 1 := ⟨l.length, by omega⟩
    rw [hd, List.range'_succ] at hl
    injection hl with hj hl
    subst hj
    unfold pivotColumns at h
    split at h
    · next hn =>
      obtain ⟨h0, h1⟩ := pivotStep_none (pivotColumn_none (by omega) hn)
      refine det_eq_zero_of_failed_column (j := j) (by omega) x.w hx fun r hjr hr => ?_
      rcases Nat.eq_or_lt_of_le hjr with rfl | hlt
      · exact h0
      · exact h1 rfl r hlt hr
    next y hy =>
    obtain ⟨⟨U, hU, hw, -⟩, h2, h3⟩ := pivotColumn_some (by omega) hy
    have hx' : ∀ i, i < j + 1 → ColumnClear n y.w i := fun i hi => by
      rcases Nat.lt_succ_iff_lt_or_eq.mp hi with hi | rfl
      · exact h3 i hi (hx i hi)
      · exact h2
    have hdet := ih (j + 1) (by rw [hl]; congr 1; omega) (by omega) hx' h
    rw [hw, Matrix.det_mul] at hdet
    exact (mul_eq_zero.mp hdet).resolve_left hU

/-- W keeps the shape n×n once a pivot column has run. -/
theorem eliminateStep_isMatOf (j : Nat) (x : Augmented) (hx : ∃ f, x.w = matOf n n f) :
    ∃ f, (eliminateStep n j x).w = matOf n n f := by
  unfold eliminateStep
  generalize List.range n = l
  induction l generalizing x with
  | nil => exact hx
  | cons k l ih =>
    refine ih (eliminateRow n j k x) ?_
    unfold eliminateRow
    split
    · exact hx
    · exact ⟨_, rfl⟩

theorem pivotColumns_isMatOf {lp : Bool} (l : List Nat) {x z : Augmented} (hx : ∃ f, x.w = matOf n n f)
    (h : pivotColumns lp n l x = some z) : ∃ f, z.w = matOf n n f := by
  induction l generalizing x with
  | nil =>
    cases h
    exact hx
  | cons j l ih =>
    unfold pivotColumns at h
    split at h
    · cases h
    next y hy =>
    refine ih ?_ h
    unfold pivotColumn at hy
    split at hy
    · cases hy
    split at hy
    · cases hy
    cases hy
    exact eliminateStep_isMatOf j _ ⟨_, rfl⟩

/-- The final check never fails (R157): the columns of W are those of the identity. -/
theorem eq_identity_of_columnsClear {W : Mat} (hW : ∃ f, W = matOf n n f) (h : ∀ i, i < n → ColumnClear n W i) :
    W = identity n := by
  obtain ⟨f, rfl⟩ := hW
  refine matOf_congr n n _ _ fun i j hi hj => ?_
  rw [← entry_matOf n n f hi hj, h j hj i hi]

/-- The inverter either fails in a pivot column or ends with the accumulator of the elimination (R152, R157). -/
theorem invert_eq (lp : Bool) {A : Mat} (hA : ∃ f, A = matOf n n f) :
    invert lp n A = (pivotColumns lp n (List.range n) ⟨A, identity n⟩).map (·.acc) := by
  unfold invert
  split
  · next h => rw [h]; rfl
  next x hx =>
  have hx' := hx
  rw [List.range_eq_range'] at hx'
  have h := pivotColumns_some (List.range' 0 n) 0 (by simp) (Nat.zero_le n) (fun i hi => absurd hi (by omega)) hx'
  rw [if_pos (eq_identity_of_columnsClear (pivotColumns_isMatOf _ hA hx) h.2), hx]
  rfl

/-- On success ACC is the inverse, from the left (R162). -/
theorem invert_some {lp : Bool} {A X : Mat} (hA : ∃ f, A = matOf n n f) (h : invert lp n A = some X) :
    toMatrix n n X * toMatrix n n A = 1 := by
  rw [invert_eq lp hA] at h
  obtain ⟨x, hx, rfl⟩ := Option.map_eq_some_iff.mp h
  have hx' := hx
  rw [List.range_eq_range'] at hx'
  obtain ⟨⟨U, -, hw, ha⟩, hc⟩ :=
    pivotColumns_some (List.range' 0 n) 0 (by simp) (Nat.zero_le n) (fun i hi => absurd hi (by omega)) hx'
  rw [eq_identity_of_columnsClear (pivotColumns_isMatOf _ hA hx) hc, toMatrix_identity] at hw
  simp only [toMatrix_identity, Matrix.mul_one] at ha
  rw [ha]
  exact hw.symm

/-- Under row swapping the inverter fails only on a matrix with determinant 0 (R162). -/
theorem invert_none {A : Mat} (hA : ∃ f, A = matOf n n f) (h : invert true n A = none) :
    (toMatrix n n A).det = 0 := by
  rw [invert_eq true hA, Option.map_eq_none_iff, List.range_eq_range'] at h
  exact pivotColumns_none (x := ⟨A, identity n⟩) (List.range' 0 n) 0 (by simp) (Nat.zero_le n)
    (fun i hi => absurd hi (by omega)) h

/-- The two policies run identically until the first zero pivot (R162). -/
theorem pivotColumn_policy {j : Nat} {x y : Augmented} (h : pivotColumn false n j x = some y) :
    pivotColumn true n j x = some y := by
  have hs : ∀ z, pivotStep false n j x = some z → pivotStep true n j x = some z := fun z hz => by
    rcases pivotStep_some hz with ⟨h0, rfl⟩ | ⟨-, hl, -⟩
    · unfold pivotStep
      rw [if_pos h0]
    · cases hl
  unfold pivotColumn at h ⊢
  split at h
  · cases h
  next z hz =>
  rw [hs z hz]
  exact h

theorem pivotColumns_policy (l : List Nat) {x y : Augmented} (h : pivotColumns false n l x = some y) :
    pivotColumns true n l x = some y := by
  induction l generalizing x with
  | nil => exact h
  | cons j l ih =>
    unfold pivotColumns at h ⊢
    split at h
    · cases h
    next z hz =>
    rw [pivotColumn_policy hz]
    exact ih h

theorem invert_policy {A X : Mat} (h : invert false n A = some X) : invert true n A = some X := by
  unfold invert at h ⊢
  split at h
  · cases h
  next x hx =>
  rw [pivotColumns_policy _ hx]
  exact h

/-! ### Without row swapping: the leading principal minors (R153, R162) -/

/-- The leading m×m block after scaling one of its rows. -/
theorem det_lead_scaleRow {m j : Nat} (hm : m ≤ n) (hj : j < m) (p : Residue) (A : Mat) :
    (toMatrix m m (scaleRow n j p A)).det = ((p.val : ℕ) : ZMod 29) * (toMatrix m m A).det := by
  have h : toMatrix m m (scaleRow n j p A) =
      (toMatrix m m A).updateRow ⟨j, hj⟩ (((p.val : ℕ) : ZMod 29) • (toMatrix m m A) ⟨j, hj⟩) := by
    ext r c
    rw [toMatrix, scaleRow, entry_matOf _ _ _ (r.isLt.trans_le hm) (c.isLt.trans_le hm), Matrix.updateRow_apply]
    by_cases h : r.val = j
    · rw [if_pos h, if_pos (Fin.ext h), cast_mul29, mul_comm]
      rfl
    · rw [if_neg h, if_neg fun e => h (congrArg Fin.val e)]
      rfl
  rw [h, Matrix.det_updateRow_smul, Matrix.updateRow_eq_self]

/-- The leading m×m block's determinant is not changed by subtracting one of its rows from another row. -/
theorem det_lead_subtractRow {m j k : Nat} (hm : m ≤ n) (hj : j < m) (hkj : k ≠ j) (f : Residue) (A : Mat) :
    (toMatrix m m (subtractRow n j k f A)).det = (toMatrix m m A).det := by
  have he : ∀ r c : Fin m, toMatrix m m (subtractRow n j k f A) r c =
      if r.val = k then toMatrix m m A r c + -((f.val : ℕ) : ZMod 29) * toMatrix m m A ⟨j, hj⟩ c
      else toMatrix m m A r c := by
    intro r c
    rw [toMatrix, subtractRow, entry_matOf _ _ _ (r.isLt.trans_le hm) (c.isLt.trans_le hm)]
    by_cases h : r.val = k
    · rw [if_pos h, if_pos h, ← h, cast_sub29, cast_mul29, neg_mul, ← sub_eq_add_neg]
      rfl
    · rw [if_neg h, if_neg h]
      rfl
  by_cases hk : k < m
  · rw [← Matrix.det_updateRow_add_smul_self (toMatrix m m A) (i := ⟨k, hk⟩) (j := ⟨j, hj⟩)
      (fun e => hkj (congrArg Fin.val e)) (-((f.val : ℕ) : ZMod 29))]
    congr 1
    ext r c
    rw [he, Matrix.updateRow_apply]
    by_cases h : r.val = k
    · rw [if_pos h, if_pos (Fin.ext h), show r = ⟨k, hk⟩ from Fin.ext h]
      rfl
    · rw [if_neg h, if_neg fun e => h (congrArg Fin.val e)]
  · congr 1
    ext r c
    rw [he, if_neg (by omega)]

/-- Step 3 keeps the determinant of every leading block that holds the pivot. -/
theorem det_lead_eliminateStep {m j : Nat} (hm : m ≤ n) (hj : j < m) (x : Augmented) :
    (toMatrix m m (eliminateStep n j x).w).det = (toMatrix m m x.w).det := by
  unfold eliminateStep
  generalize List.range n = l
  induction l generalizing x with
  | nil => rfl
  | cons k l ih =>
    rw [List.foldl_cons, ih]
    unfold eliminateRow
    split
    · rfl
    · next h =>
      push Not at h
      exact det_lead_subtractRow hm hj h.1 _ _

/-- Without row swapping a pivot column fails exactly when the working pivot is 0 (R153). -/
theorem pivotColumn_false_none_iff {j : Nat} (hj : j < n) (x : Augmented) :
    pivotColumn false n j x = none ↔ entry x.w j j = 0 := by
  refine ⟨fun h => (pivotStep_none (pivotColumn_none hj h)).1, fun h => ?_⟩
  simp [pivotColumn, pivotStep, h]

/-- Without row swapping a pivot column keeps which leading blocks that hold the pivot are singular. -/
theorem det_lead_pivotColumn {m j : Nat} (hm : m ≤ n) (hj : j < m) {x z : Augmented}
    (h : pivotColumn false n j x = some z) :
    (toMatrix m m z.w).det = 0 ↔ (toMatrix m m x.w).det = 0 := by
  have := prime_29
  unfold pivotColumn at h
  split at h
  · cases h
  next y hy =>
  split at h
  · cases h
  next p hp =>
  cases h
  obtain ⟨-, rfl⟩ | ⟨-, hl, -⟩ := pivotStep_some hy
  · have hp0 : ((p.val : ℕ) : ZMod 29) ≠ 0 := fun e => by
      have := cast_inv29 _ _ hp
      rw [e, mul_zero] at this
      exact zero_ne_one this
    rw [det_lead_eliminateStep hm hj, scaleStep, det_lead_scaleRow hm hj, mul_eq_zero]
    exact or_iff_right hp0
  · cases hl

/-- When the columns before j are clear, the leading minor of size j + 1 is the working pivot. -/
theorem det_lead_eq_pivot {j : Nat} (hj : j < n) (W : Mat) (hc : ∀ i, i < j → ColumnClear n W i) :
    (toMatrix (j + 1) (j + 1) W).det = ((entry W j j).val : ZMod 29) := by
  have hcol : ∀ r c : Fin (j + 1), c.val < j → toMatrix (j + 1) (j + 1) W r c = if r.val = c.val then 1 else 0 := by
    intro r c h
    rw [toMatrix, hc c.val h r.val (by omega)]
    split <;> simp
  rw [Matrix.det_of_isUpperTriangular fun r c h => ?_, Fin.prod_univ_castSucc]
  · rw [Finset.prod_eq_one fun i _ => ?_, one_mul]
    · rfl
    · rw [hcol _ _ i.isLt, if_pos rfl]
  · have h' : c.val < r.val := h
    rw [hcol r c (by omega), if_neg (by omega)]

/-- Without row swapping the pivot columns m, m+1, …, n−1 all succeed exactly when the leading minors past m are nonzero. -/
theorem pivotColumns_false_none_iff (l : List Nat) (m : Nat) (hl : l = List.range' m (n - m)) (hm : m ≤ n)
    (x : Augmented) (hx : ∀ i, i < m → ColumnClear n x.w i) :
    pivotColumns false n l x = none ↔ ∃ k, m < k ∧ k ≤ n ∧ (toMatrix k k x.w).det = 0 := by
  have := prime_29
  induction l generalizing m x with
  | nil =>
    have : n - m = 0 := by simpa using congrArg List.length hl.symm
    exact ⟨nofun, fun ⟨k, h1, h2, _⟩ => by omega⟩
  | cons j l ih =>
    have hlen : l.length + 1 = n - m := by simpa using congrArg List.length hl
    obtain ⟨d, hd⟩ : ∃ d, n - m = d + 1 := ⟨l.length, by omega⟩
    rw [hd, List.range'_succ] at hl
    injection hl with hj hl
    subst hj
    have hjn : j < n := by omega
    have hpiv : (toMatrix (j + 1) (j + 1) x.w).det = 0 ↔ entry x.w j j = 0 := by
      rw [det_lead_eq_pivot hjn _ hx, cast_residue_eq_zero]
    unfold pivotColumns
    split
    · next hn =>
      exact ⟨fun _ => ⟨j + 1, by omega, hjn, hpiv.mpr ((pivotColumn_false_none_iff hjn x).mp hn)⟩, fun _ => rfl⟩
    next y hy =>
    obtain ⟨-, h2, h3⟩ := pivotColumn_some hjn hy
    have hx' : ∀ i, i < j + 1 → ColumnClear n y.w i := fun i hi => by
      rcases Nat.lt_succ_iff_lt_or_eq.mp hi with hi | rfl
      · exact h3 i hi (hx i hi)
      · exact h2
    refine (ih (j + 1) (by rw [hl]; congr 1; omega) (by omega) y hx').trans ⟨?_, ?_⟩
    · rintro ⟨k, h1, h2, h⟩
      exact ⟨k, by omega, h2, (det_lead_pivotColumn h2 (by omega) hy).mp h⟩
    · rintro ⟨k, h1, h2, h⟩
      have hne : k ≠ j + 1 := by
        rintro rfl
        rw [(pivotColumn_false_none_iff hjn x).mpr (hpiv.mp h)] at hy
        cases hy
      exact ⟨k, by omega, h2, (det_lead_pivotColumn h2 (by omega) hy).mpr h⟩

/-- Without row swapping the inverter fails exactly when some leading principal minor is 0 (R153, R162). -/
theorem invert_false_none_iff {A : Mat} (hA : ∃ f, A = matOf n n f) :
    invert false n A = none ↔ ∃ k, 1 ≤ k ∧ k ≤ n ∧ (toMatrix k k A).det = 0 := by
  rw [invert_eq false hA, Option.map_eq_none_iff, List.range_eq_range']
  exact pivotColumns_false_none_iff (List.range' 0 n) 0 (by simp) (Nat.zero_le n) ⟨A, identity n⟩
    fun i hi => absurd hi (by omega)

end Sys2Proof.Machine
end

