-- ==== Sys2Proof/Tests/Slice0.lean ====
section
/-! SUPPORT. The model's own tests: words and results copied from the spec (30_encoding.md R102, R108; 95_test_vectors.md, the vector
is named in each docstring), the well-formedness smoke, and for every obligation with hypotheses a `witness_` theorem that
shows concrete operands meeting them, at the boundaries of their ranges. -/

namespace Sys2Proof.Tests

open Sys2Proof Sys2Proof.Machine

set_option maxRecDepth 20000

/-! ### Helpers -/

/-- The reset state with scalar operands. -/
def scalar (a b : Word) : State := { State.reset with opa := a, opb := b }

/-- RES and STATUS after a step that goes on. -/
def resStatus (o : Host.Outcome State Fault Refusal) : Option (Nat × Word) :=
  (nextState o).map fun t => (t.res.val, t.status.toWord)

/-- s with the m×k matrix A (row by row) in slot sl. -/
def holding (sl : SlotNo) (m k : Nat) (A : Mat) (s : State) : State :=
  (List.range (m * k)).foldl (fun t q => setElem sl (q % m) (q / m) (entry A (q % m) (q / m)) t)
    (setDim sl ⟨BitVec.ofNat 8 m, BitVec.ofNat 8 k⟩ s)

/-- The matrix in a slot and STATUS after a step that goes on. -/
def slotStatus (sl : SlotNo) (o : Host.Outcome State Fault Refusal) : Option (Mat × Word) :=
  (nextState o).map fun t => (value t sl, t.status.toWord)

/-- The last value the Host read, and STATUS. -/
def lastRead (o : Host.Outcome State Fault Refusal) : Option (Option Word × Word) :=
  (nextState o).map fun t => (t.reads.getLast?, t.status.toWord)

/-- A state with a command pending. -/
def busy (c : Word) (s : State) : State := accept c s

/-- The reset state with the given event next. -/
def next (e : Event) (s : State) : State := { s with inbox := [e] }

/-- The default key E of DOC0 (R163). -/
def keyE : Mat := [[2, 3], [4, 5]]

/-- Its inverse D (R163). -/
def keyD : Mat := [[12, 16], [2, 28]]

/-! ### Decoding: words written out from R101 and R102 -/

/-- Format S (R102): RSV, SD, SB, SA all 0, then OPC. -/
theorem test_decode_scalar_words :
    decode 0b00000000000000000000000000000001 = .ok .mred ∧ decode 0b00000000000000000000000000000010 = .ok .madd ∧
      decode 0b00000000000000000000000000000011 = .ok .msub ∧ decode 0b00000000000000000000000000000100 = .ok .mmul ∧
      decode 0b00000000000000000000000000000101 = .ok .minv := by decide

/-- Format U (R102): RSV(18) SD(2) 00 SA(2) OPC(8); V-E row 2 is the second word. -/
theorem test_decode_matinv_words :
    decode 0b00000000000000000001000000010000 = .ok (.matinv 1 0) ∧ decode 0x00003310 = .ok (.matinv 3 3) ∧
      decode 0x00000310 = .ok (.matinv 0 3) := by decide

/-- Format B (R102): RSV(18) SD(2) SB(2) SA(2) OPC(8); R108, P2 and V-E. -/
theorem test_decode_matmul_words :
    decode 0b00000000000000000010010000010001 = .ok (.matmul 2 0 1) ∧ decode 0x00001B11 = .ok (.matmul 1 3 2) ∧
      decode 0x00003C11 = .ok (.matmul 3 0 3) ∧ decode 0x00000011 = .ok (.matmul 0 0 0) := by decide

/-- The illegal words of V-E, each with its reason. -/
theorem test_decode_illegal_words :
    decode 0x00000000 = .error .unassignedOpcode ∧ decode 0x00000006 = .error .unassignedOpcode ∧
      decode 0x000000FF = .error .unassignedOpcode ∧ decode 0x00000101 = .error .scalarSlotField ∧
      decode 0x00003002 = .error .scalarSlotField ∧ decode 0x00000410 = .error .matinvSlotB ∧
      decode 0x00004011 = .error .reservedBits ∧ decode 0x80000002 = .error .reservedBits := by decide

/-- The words of R108. -/
theorem test_encode_words :
    encode .mred = 0x00000001 ∧ encode .madd = 0x00000002 ∧ encode .msub = 0x00000003 ∧ encode .mmul = 0x00000004 ∧
      encode .minv = 0x00000005 ∧ encode (.matinv 1 0) = 0x00001010 ∧ encode (.matmul 2 0 1) = 0x00002411 := by decide

/-- The table's numbering is the word's own (R10); a number with a bit above the word is no command. -/
theorem test_decodeTableWord :
    decodeTableWord 32 0x2411 = some (.matmul 2 0 1) ∧ decodeTableWord 32 0x4011 = none ∧
      decodeTableWord 40 0x100000001 = none := by decide

/-- One ill-formed field set for each check of R105, refused by that check alone, and a legal one. -/
theorem test_wellFormed_smoke :
    (CmdFields.mk 0x11 0 0 0 1).rsvClear = false ∧ (CmdFields.mk 0x11 0 0 0 1).legal = false ∧
      (CmdFields.mk 0x12 0 0 0 0).opcAssigned = false ∧ (CmdFields.mk 0x12 0 0 0 0).legal = false ∧
      (CmdFields.mk 0x01 1 0 0 0).scalarNamesNoSlot = false ∧ (CmdFields.mk 0x01 1 0 0 0).legal = false ∧
      (CmdFields.mk 0x10 0 1 0 0).matinvHasNoSb = false ∧ (CmdFields.mk 0x10 0 1 0 0).legal = false ∧
      (CmdFields.mk 0x11 3 3 3 0).legal = true := by decide

/-! ### Commands -/

/-- V-S1: −29 gives 0 and not 29 (90_conflicts.md C1); 1000, −2^31 and 2^31 − 1. -/
theorem test_mred :
    resStatus (exec .mred (scalar 0xFFFFFFE3 0)) = some (0, 0x2) ∧ resStatus (exec .mred (scalar 0x3E8 0)) = some (14, 0x2) ∧
      resStatus (exec .mred (scalar 0x80000000 0)) = some (21, 0x2) ∧
      resStatus (exec .mred (scalar 0x7FFFFFFF 0)) = some (7, 0x2) := by decide

/-- V-S2. -/
theorem test_madd :
    resStatus (exec .madd (scalar 28 28)) = some (27, 0x2) ∧ resStatus (exec .madd (scalar 0xFFFFFFFF 1)) = some (0, 0x2) ∧
      resStatus (exec .madd (scalar 0x80000000 0x80000000)) = some (13, 0x2) := by decide

/-- V-S3. -/
theorem test_msub :
    resStatus (exec .msub (scalar 3 10)) = some (22, 0x2) ∧ resStatus (exec .msub (scalar 0 1)) = some (28, 0x2) ∧
      resStatus (exec .msub (scalar 0 0x80000000)) = some (8, 0x2) := by decide

/-- V-S4. -/
theorem test_mmul :
    resStatus (exec .mmul (scalar 1000 1000)) = some (22, 0x2) ∧
      resStatus (exec .mmul (scalar 0x7FFFFFFF 0x7FFFFFFF)) = some (20, 0x2) ∧
      resStatus (exec .mmul (scalar 0x80000000 0x80000000)) = some (6, 0x2) := by decide

/-- V-S5, values. -/
theorem test_minv :
    resStatus (exec .minv (scalar 27 0)) = some (14, 0x2) ∧ resStatus (exec .minv (scalar 0xFFFFFFFF 0)) = some (28, 0x2) ∧
      resStatus (exec .minv (scalar 0x80000000 0)) = some (18, 0x2) := by decide

/-- V-S5, the zero residue: NOINV with RES = 0, also over an earlier result. -/
theorem test_minv_noinv :
    resStatus (exec .minv { scalar 0xFFFFFFE3 0 with res := 5 }) = some (0, 0x406) ∧
      resStatus (exec .minv (scalar 58 0)) = some (0, 0x406) := by decide

/-- V-I7 (PIVOT = 1), V-I4, V-I6 and V-I15 (sentinel source); the other policy on V-I7. -/
theorem test_matinv :
    slotStatus 1 (exec (.matinv 1 0) (holding 0 3 3 [[2, 3, 1], [4, 6, 5], [1, 1, 1]] State.reset)) =
        some ([[10, 9, 3], [10, 10, 27], [9, 10, 0]], 0x2) ∧
      slotStatus 1 (exec (.matinv 1 0)
        { holding 0 3 3 [[2, 3, 1], [4, 6, 5], [1, 1, 1]] State.reset with lpivot := false }) = some ([], 0x306) ∧
      slotStatus 1 (exec (.matinv 1 0) (holding 0 2 2 keyE State.reset)) = some (keyD, 0x2) ∧
      slotStatus 1 (exec (.matinv 1 0) (holding 0 2 2 [[1, 2], [1, 2]] State.reset)) = some ([], 0x306) ∧
      slotStatus 1 (exec (.matinv 1 0) State.reset) = some ([], 0x206) := by decide

/-- V-I19 (the first nonzero row is swapped in), V-I8 with PIVOT = 0, V-I14 (not square) and V-I16 (SD = SA). -/
theorem test_matinv_swap_shape_alias :
    slotStatus 1 (exec (.matinv 1 0) (holding 0 3 3 [[0, 1, 1], [2, 0, 1], [3, 1, 0]] State.reset)) =
        some ([[23, 6, 6], [18, 11, 12], [12, 18, 17]], 0x2) ∧
      slotStatus 1 (exec (.matinv 1 0) { holding 0 2 2 [[1, 1], [1, 0]] State.reset with lpivot := false }) =
        some ([[0, 1], [1, 28]], 0x2) ∧
      slotStatus 1 (exec (.matinv 1 0) (holding 0 2 3 [] State.reset)) = some ([], 0x206) ∧
      slotStatus 0 (exec (.matinv 0 0) (holding 0 2 2 keyE State.reset)) = some (keyD, 0x2) := by decide

/-- V-M4, V-M5, V-M7 (inner sizes differ) and V-M12 (all three slots the same). -/
theorem test_matmul :
    slotStatus 2 (exec (.matmul 2 0 1) (holding 1 3 1 [[4], [5], [6]] (holding 0 1 3 [[1, 2, 3]] State.reset))) =
        some ([[3]], 0x2) ∧
      slotStatus 2 (exec (.matmul 2 0 1) (holding 1 1 3 [[1, 2, 3]] (holding 0 3 1 [[4], [5], [6]] State.reset))) =
        some ([[4, 8, 12], [5, 10, 15], [6, 12, 18]], 0x2) ∧
      slotStatus 2 (exec (.matmul 2 0 1) (holding 1 3 1 [[1], [2], [3]] (holding 0 2 2 keyE State.reset))) =
        some ([], 0x206) ∧
      slotStatus 0 (exec (.matmul 0 0 0) (holding 0 2 2 keyE State.reset)) = some ([[16, 21], [28, 8]], 0x2) := by decide

/-- V-M14 and R47: what slot 2 held outside the 2×1 result is cleared, offset 0x3024 = element (1,1) of slot 2 among it. -/
theorem test_matmul_clears_leftovers :
    (nextState (exec (.matmul 2 0 1) (holding 2 3 3 [[1, 2, 3], [4, 5, 6], [7, 8, 10]]
      (holding 1 2 1 [[0], [1]] (holding 0 2 2 keyE State.reset))))).map
        (fun t => (value t 2, (t.dim.get 2).toWord, Memory.read t.mem 0x3024)) =
      some ([[3], [5]], 0x00000102, 0) := by decide

/-! ### The register space, status, interrupt and reset -/

/-- V-D: the maximum shape, an ignored upper part, and a collapsing shape. -/
theorem test_dim_writes :
    (nextState (hostWrite 0x020 0x00002008 State.reset)).map (fun t => (t.dim.get 0).toWord) = some 0x00002008 ∧
      (nextState (hostWrite 0x020 0x00010203 State.reset)).map (fun t => (t.dim.get 0).toWord) = some 0x00000203 ∧
      (nextState (hostWrite 0x020 0x00002108 State.reset)).map (fun t => (t.dim.get 0).toWord) = some 0 := by decide

/-- V-W: normalization and the places of elements (1,1) of slot 0, (0,1) of slot 1 and (7,31) of slot 0. -/
theorem test_element_writes :
    (nextState (hostWrite 0x1000 0x80000000 State.reset)).map (fun t => (elem t 0 0 0).val) = some 21 ∧
      (nextState (hostWrite 0x1024 5 State.reset)).map (fun t => (elem t 0 1 1).val) = some 5 ∧
      (nextState (hostWrite 0x2020 5 State.reset)).map (fun t => (elem t 1 0 1).val) = some 5 ∧
      (nextState (hostWrite 0x13FC 9 State.reset)).map (fun t => (elem t 0 7 31).val) = some 9 ∧
      (nextState (hostWrite 0x1400 9 State.reset)).map (·.mem) = some [] := by decide

/-- V-R and V-W: the ID word, the CTRL word, and offsets that hold nothing. -/
theorem test_reads_after_reset :
    lastRead (hostRead 0x000 State.reset) = some (some 0x0120081D, 0) ∧
      lastRead (hostRead 0x004 State.reset) = some (some 1, 0) ∧
      lastRead (hostRead 0xFFFC State.reset) = some (some 0, 0) ∧ irq State.reset = false := by decide

/-- V-W: 8-bit, 16-bit and misaligned accesses fault. -/
theorem test_bus_errors :
    step (next (.host (.read 1 0)) State.reset) = .fault .busError ∧
      step (next (.host (.write 2 0x010 5)) State.reset) = .fault .busError ∧
      step (next (.host (.read 4 0x002)) State.reset) = .fault .busError := ⟨rfl, rfl, rfl⟩

/-- V-B: while MINV is pending a read of RES returns 0 and sets BUSYACC, a read of CMD is allowed; the completion keeps BUSYACC. -/
theorem test_busy_accesses :
    lastRead (hostRead 0x018 (busy 5 (scalar 5 0))) = some (some 0, 0x9) ∧
      lastRead (hostRead 0x00C (busy 5 (scalar 5 0))) = some (some 5, 0x1) ∧
      resStatus (engineStep (blockAccess (busy 5 (scalar 5 0)))) = some (6, 0xA) := by decide

/-- V-Q: write-1-to-clear from STATUS = 0x306. -/
theorem test_status_writes :
    let s : State := { State.reset with status := ⟨false, true, true, false, .singular⟩ }
    lastRead (hostRead 0x008 s) = some (some 0x306, 0x306) ∧
      resStatus (hostWrite 0x008 0x1 s) = some (0, 0x306) ∧ resStatus (hostWrite 0x008 0x2 s) = some (0, 0x304) ∧
      resStatus (hostWrite 0x008 0xE s) = some (0, 0x300) ∧ resStatus (hostWrite 0x00C 1 s) = some (0, 0x305) := by decide

/-- V-I25: the policy latched at acceptance decides, not CTRL.PIVOT at the completion. -/
theorem test_pivot_latch :
    slotStatus 1 (engineStep { busy 0x1010 { holding 0 2 2 [[0, 1], [1, 0]] State.reset with ctrl := ⟨false, false⟩ } with
      ctrl := ⟨true, false⟩ }) = some ([], 0x306) := by decide

/-- The host's entry point: from reset, MATINV of a sentinel completes with DIM at the very next step (V-I15), and an illegal word
with ILLEGAL (V-E). -/
theorem test_withFetchWord :
    slotStatus 1 (step (State.reset.withFetchWord 32 0x1010)) = some ([], 0x206) ∧
      slotStatus 1 (step (State.reset.withFetchWord 32 0x4011)) = some ([], 0x106) := by decide

/-- R110: the word of SETDIM is (c << 8) | r, also for an r above 8 bits (0x102 and c = 1 overlap in bit 8). -/
theorem test_setdim :
    HostProgram.setdim 0 2 2 = [HostProgram.wr 0x020 0x00000202] ∧
      HostProgram.setdim 0 0x102 1 = [HostProgram.wr 0x020 0x00000102] ∧
      HostProgram.setdim 3 8 32 = [HostProgram.wr 0x02C 0x00002008] := ⟨rfl, rfl, rfl⟩

/-- R230: engine turns and resets that are still listed are no accesses of the Host program. -/
theorem test_runOver :
    runOver (next .engine State.reset) = true ∧ runOver (next .reset State.reset) = true ∧
      runOver (next (HostProgram.rd 0x008) State.reset) = false ∧ runOver (busy 1 State.reset) = false := by decide

/-- R110, I16: a poll with BUSY = 1 is repeated and leaves the result as it was; the poll that ends the WAIT returns STATUS. -/
theorem test_waitPoll :
    (nextState (hostPoll (busy 1 State.reset))).map (fun t => (t.reads, t.busyPolls)) = some ([], [(0, 1)]) ∧
      (nextState (hostPoll State.reset)).map (fun t => (t.reads, t.busyPolls)) = some ([0], []) := by decide

/-! ### Witnesses: operands that meet the hypotheses of the obligations -/

/-- Slot 0 holds E, slot 1 the block of "HELP" (W4). -/
def cipher : State := holding 1 2 2 [[7, 11], [4, 15]] (holding 0 2 2 keyE State.reset)

theorem witness_NormalizeIsTheFloorResidue :
    ((-1 : Int) < 0 ∧ trem29 (-1) ≠ 0) ∧ (0 : Int) ≤ 0 ∧ (29 : Int) ∣ (-29) - (0 : Residue).val := by decide

theorem witness_InverseTableHoldsTheInverses :
    (1 : Residue) ≠ 0 ∧ (28 : Residue) ≠ 0 ∧ inv29 2 = some 15 := by decide

theorem witness_MinvLooksUpTheInverse :
    (scalar 0 0).opa.toInt % 29 = 0 ∧ (scalar 0xFFFFFFE3 0).opa.toInt % 29 = 0 ∧ (scalar 1 0).opa.toInt % 29 ≠ 0 ∧
      (scalar 0x80000000 0).opa.toInt % 29 ≠ 0 := by decide

theorem witness_ScalarCommandsObeyTheRingLaws :
    (0x1D : Word).toInt % 29 = (0xFFFFFFE3 : Word).toInt % 29 ∧ (nextState (exec .minv (scalar 0 0))).map (·.status.ecode) = some .noinv ∧
      (nextState (exec .madd (scalar 28 1))).map (·.res) = some 0 ∧
      (nextState (exec .mmul (scalar 28 1))).map (·.res) = some 28 ∧
      normalize29 (1 : Word).toInt ≠ 0 ∧ normalize29 (0x1D : Word).toInt = 0 ∧
      (nextState (exec .minv (scalar 27 0))).map (·.res) = some 14 := by decide

/-- The illegal words at the ends of R105's ranges, written while BUSY = 0. -/
theorem witness_IllegalWordsCompleteWithIllegal :
    decode 0x00000000 = .error .unassignedOpcode ∧ decode 0x00000006 = .error .unassignedOpcode ∧
      decode 0x0000000F = .error .unassignedOpcode ∧ decode 0x00000012 = .error .unassignedOpcode ∧
      decode 0x000000FF = .error .unassignedOpcode ∧ decode 0x00000305 = .error .scalarSlotField ∧
      decode 0x00000C10 = .error .matinvSlotB ∧ decode 0x80000011 = .error .reservedBits ∧
      State.reset.status.busy = false := by decide

theorem witness_EngineStepRunsThePendingCommand :
    nextIsEngine (next .engine (busy 1 State.reset)) = true ∧ nextIsEngine (busy 1 State.reset) = true ∧
      (busy 1 State.reset).status.busy = true ∧ decode (busy 1 State.reset).cmd = .ok .mred ∧
      decode (busy 0 State.reset).cmd = .error .unassignedOpcode ∧ nextIsEngine State.reset = true ∧
      State.reset.status.busy = false := by decide

/-- Both cases of the operand check: a sentinel factor, inner sizes that differ, and factors that match, the widest among them. -/
theorem witness_MatmulMultipliesSlots :
    Inv State.reset ∧ rows State.reset 0 = 0 ∧ Inv cipher ∧ rows cipher 0 = 2 ∧ rows cipher 1 = 2 ∧ cols cipher 0 = 2 ∧
      (let s := holding 1 3 1 [[1], [2], [3]] (holding 0 2 2 keyE State.reset);
        Inv s ∧ rows s 0 = 2 ∧ cols s 0 = 2 ∧ rows s 1 = 3) ∧
      let s := setDim 1 ⟨8, 32⟩ (setDim 0 ⟨8, 8⟩ State.reset);
      Inv s ∧ rows s 0 = 8 ∧ cols s 0 = 8 ∧ rows s 1 = 8 ∧ cols s 1 = 32 := by decide

/-- Sentinel and non-square sources; n = 1 and n = NMAX. -/
theorem witness_MatinvChecksItsOperand :
    rows State.reset 0 = 0 ∧ (let s := holding 0 2 3 [] State.reset; rows s 0 = 2 ∧ cols s 0 = 3) ∧
      (let s := holding 0 1 1 [[7]] State.reset; Inv s ∧ rows s 0 = 1 ∧ cols s 0 = 1) ∧
      let s := setDim 0 ⟨8, 8⟩ State.reset;
      Inv s ∧ rows s 0 = 8 ∧ cols s 0 = 8 := by decide

theorem witness_MatinvFailureLeavesTheSentinel :
    (nextState (exec (.matinv 1 0) State.reset)).map (·.status.ecode) = some .dim ∧
      (nextState (exec (.matinv 1 0) (holding 0 1 1 [[0]] State.reset))).map (·.status.ecode) = some .singular := by decide

theorem witness_MatinvOkGivesTheInverse :
    Inv cipher ∧ (nextState (exec (.matinv 1 0) cipher)).map (·.status.ecode) = some .ok ∧
      (nextState (exec (.matinv 1 0) { cipher with lpivot := false })).map (·.status.ecode) = some .ok ∧
      Inv { cipher with lpivot := false } := by decide

/-- A 1×1 matrix with an inverse and one without. -/
theorem witness_MatinvWithSwappingDecidesInvertibility :
    (let s := holding 0 1 1 [[7]] State.reset;
      Inv s ∧ s.lpivot = true ∧ rows s 0 = 1 ∧ cols s 0 = 1) ∧
      (squareValue (holding 0 1 1 [[7]] State.reset) 0 1).det ≠ 0 ∧
      (squareValue (holding 0 1 1 [[0]] State.reset) 0 1).det = 0 := by
  rw [Matrix.det_fin_one, Matrix.det_fin_one]
  decide

/-- Two identical rows (R161), in both modes. -/
theorem witness_MatinvReportsEverySingularMatrix :
    (let s := holding 0 2 2 [[1, 2], [1, 2]] State.reset;
      Inv s ∧ Inv { s with lpivot := false } ∧ rows s 0 = 2 ∧ cols s 0 = 2) ∧
      (squareValue (holding 0 2 2 [[1, 2], [1, 2]] State.reset) 0 2).det = 0 := by
  rw [Matrix.det_fin_two]
  decide

theorem witness_MatinvPoliciesAgreeOnSuccess :
    ({ cipher with lpivot := false } : State).lpivot = false ∧
      (nextState (exec (.matinv 1 0) { cipher with lpivot := false })).map (·.status.ecode) = some .ok := by decide

/-- An invertible 2×2 matrix with a = 0 and one with a ≠ 0. -/
theorem witness_MatinvWithoutSwappingFailsOnZeroCorner :
    (let s := { holding 0 2 2 [[0, 1], [1, 0]] State.reset with lpivot := false };
      Inv s ∧ rows s 0 = 2 ∧ cols s 0 = 2 ∧ elemByte s 0 0 0 = 0) ∧
      (squareValue { holding 0 2 2 [[0, 1], [1, 0]] State.reset with lpivot := false } 0 2).det ≠ 0 ∧
      (let s := { cipher with lpivot := false };
        Inv s ∧ rows s 0 = 2 ∧ cols s 0 = 2 ∧ elemByte s 0 0 0 ≠ 0) ∧
      (squareValue { cipher with lpivot := false } 0 2).det ≠ 0 := by
  rw [Matrix.det_fin_two, Matrix.det_fin_two]
  decide

/-- E in slot 0, P in slot 1, C in slot 2, D in slot 3 and the result over P in slot 1 (P2). -/
theorem witness_DecryptingAnEncryptedBlockRestoresIt :
    Inv cipher ∧ rows cipher 0 ≠ 0 ∧ cols cipher 0 = rows cipher 0 ∧ rows cipher 1 = rows cipher 0 ∧
      (2 : SlotNo) ≠ 0 ∧ (3 : SlotNo) ≠ 2 ∧
      ((nextState (exec (.matmul 2 0 1) cipher)).bind fun t => (nextState (exec (.matinv 3 0) t)).bind fun u =>
        (nextState (exec (.matmul 1 3 2) u)).map fun w => (value t 2, u.status.ecode, value w 1)) =
      some ([[26, 9], [19, 3]], .ok, [[7, 11], [4, 15]]) := by decide

/-- The smallest and the widest shape of R47. -/
theorem witness_SlotWriteBackFillsOneSlot :
    State.reset.params.Legal ∧ 1 ≤ State.reset.params.nmax ∧ 1 ≤ State.reset.params.cmax ∧
      State.reset.params.nmax = 8 ∧ State.reset.params.cmax = 32 := by decide

/-- The first and the last element of a window, and parameters at the two ends of R8. -/
theorem witness_ElementAddressesAreColumnMajor :
    Config.reference.Legal ∧ (⟨1, 1⟩ : Params).Legal ∧ (⟨32, 32⟩ : Params).Legal ∧
      target Config.reference 0x1000 = .elem 0 0 0 ∧ target Config.reference 0x43FC = .elem 3 7 31 ∧
      target ⟨32, 32⟩ 0x4FFC = .elem 3 31 31 ∧ (255 : Nat) < 8 * 32 := by decide

/-- The ends of each range of offsets that hold nothing. -/
theorem witness_EmptyWordsReadZeroAndIgnoreWrites :
    (∀ off ∈ ([0x01C, 0x030, 0xFFC, 0x1400, 0x1FFC, 0x4400, 0x4FFC, 0x5000, 0xFFFC] : List Offset),
      off.toNat % 4 = 0 ∧
      (off.toNat = 0x01C ∨ (0x030 ≤ off.toNat ∧ off.toNat < 0x1000) ∨
        (0x1000 ≤ off.toNat ∧ off.toNat < 0x5000 ∧
          State.reset.params.nmax * State.reset.params.cmax ≤ off.toNat % 0x1000 / 4) ∨
        0x5000 ≤ off.toNat)) := by simp [State.reset, Config.reference]

/-- Idle and busy, the last element, and an offset that holds nothing; it serves HostReadsReturnTheRegisters,
HostWritesToRegisters, ElementsAreStoredNormalized and IdIsAConstant. -/
theorem witness_HostReadsReturnTheRegisters :
    State.reset.params.Legal ∧ State.reset.status.busy = false ∧ (busy 1 State.reset).params.Legal ∧
      (busy 1 State.reset).status.busy = true ∧ (7 : Nat) < State.reset.params.nmax ∧ (31 : Nat) < State.reset.params.cmax ∧
      target State.reset.params 0x01C = .empty ∧ target State.reset.params 0x43FC = .elem 3 7 31 := by decide

theorem witness_HostWritesToRegisters :
    State.reset.status.busy = false ∧ (busy 1 State.reset).status.busy = true ∧ State.reset.params.Legal ∧
      target State.reset.params 0xFFFC = .empty := by decide

/-- Shapes at the ends of R40's ranges, legal and not. -/
theorem witness_DimWriteSetsALegalShape :
    (∀ v ∈ ([0x00000000, 0x00000101, 0x00002008] : List Word),
      (v.toNat % 256 = 0 ∧ v.toNat / 256 % 256 = 0) ∨
        (1 ≤ v.toNat % 256 ∧ v.toNat % 256 ≤ 8 ∧ 1 ≤ v.toNat / 256 % 256 ∧ v.toNat / 256 % 256 ≤ 32)) ∧
      (∀ v ∈ ([0x00000001, 0x00000100, 0x00002109, 0x00000109, 0x00002101] : List Word),
        ¬((v.toNat % 256 = 0 ∧ v.toNat / 256 % 256 = 0) ∨
          (1 ≤ v.toNat % 256 ∧ v.toNat % 256 ≤ 8 ∧ 1 ≤ v.toNat / 256 % 256 ∧ v.toNat / 256 % 256 ≤ 32))) ∧
      State.reset.status.busy = false ∧ (busy 1 State.reset).status.busy = true := by simp [State.reset, busy, accept, Status.accepted]

theorem witness_ElementsAreStoredNormalized :
    State.reset.params.Legal ∧ (0 : Nat) < State.reset.params.nmax ∧ (0 : Nat) < State.reset.params.cmax ∧
      (7 : Nat) < State.reset.params.nmax ∧ (31 : Nat) < State.reset.params.cmax ∧ State.reset.status.busy = false ∧
      (busy 1 State.reset).params.Legal ∧ (busy 1 State.reset).status.busy = true := by decide

theorem witness_OnlyAlignedWordAccessesAreDefined :
    (∃ f, step (next (.host (.read 2 0)) State.reset) = .fault f) ∧
      (∃ f, step (next (.host (.write 4 0xFFFF 0)) State.reset) = .fault f) ∧
      ∃ t, step (next (.host (.read 4 0xFFFC)) State.reset) = .next t := ⟨⟨_, rfl⟩, ⟨_, rfl⟩, ⟨_, rfl⟩⟩

/-- A write; reads that are not blocked, while idle (an element) and while busy (each readable register); a blocked read. -/
theorem witness_AccessesOtherThanCmdAreIdempotent :
    ((0x1000 : Offset).toNat % 4 = 0 ∧ (0x1000 : Offset) ≠ 0x00C ∧ ∃ t, hostWrite 0x1000 29 State.reset = .next t) ∧
      (State.reset.status.busy = false ∧ (target State.reset.params 0x43FC).readBlocks = true) ∧
      (∀ off ∈ ([0x000, 0x004, 0x008, 0x00C, 0x010, 0x014, 0xFFFC] : List Offset),
        (target (busy 1 State.reset).params off).readBlocks = false) ∧
      (target (busy 1 State.reset).params 0x018).readBlocks = true ∧ (busy 1 State.reset).status.busy = true :=
  ⟨⟨by decide, by decide, _, rfl⟩, by decide, fun off h => by fin_cases h <;> rfl, by decide, rfl⟩

theorem witness_CmdWriteAcceptsWhenIdle :
    State.reset.status.busy = false ∧ (busy 1 State.reset).status.busy = true := by decide

theorem witness_AcceptedCommandRunsOnItsOperands :
    State.reset.status.busy = false ∧ decode 0x00002411 = .ok (.matmul 2 0 1) := by decide

/-- The state after a step, with the antecedents of the clauses it serves: an acceptance and a completion. -/
theorem witness_StatusBitsChangeOnlyAsTabled :
    (∃ t, step (next (.host (.write 4 0x00C 1)) State.reset) = .next t ∧ t.status.busy = true) ∧
      (∃ t, step (next .engine (busy 5 State.reset)) = .next t ∧ t.status.done = true ∧ t.status.err = true ∧
        t.status.ecode = .noinv ∧ t.status.busy = false) ∧
      (∃ t, step (next .engine (busy 0 State.reset)) = .next t ∧ t.status.ecode = .illegal) :=
  ⟨⟨_, rfl, rfl⟩, ⟨_, rfl, rfl, rfl, rfl, rfl⟩, ⟨_, rfl, rfl⟩⟩

/-- The same statement's clauses on clearing, blocking and reset. -/
theorem witness_StatusBitsAreCleared :
    let s : State := { State.reset with status := ⟨false, true, true, true, .dim⟩ }
    (∃ t, step (next (.host (.write 4 0x008 0xE)) s) = .next t ∧ t.status.done = false ∧ t.status.err = false ∧
      t.status.busyacc = false) ∧
      (∃ t, step (next (.host (.read 4 0x018)) (busy 1 State.reset)) = .next t ∧ t.status.busyacc = true) ∧
      nextIsBlocked (next (.host (.read 4 0x018)) (busy 1 State.reset)) = true ∧
      (∃ t, step (next .reset s) = .next t ∧ t.status.done = false ∧ t.status.ecode = .ok) ∧
      nextIsReset (next .reset s) = true :=
  ⟨⟨_, rfl, rfl, rfl, rfl⟩, ⟨_, rfl, rfl⟩, rfl, ⟨_, rfl, rfl, rfl⟩, rfl⟩

theorem witness_BlockedAccessesOnlySetBusyacc :
    (busy 1 State.reset).status.busy = true ∧ target State.reset.params 0x018 = .res ∧
      target State.reset.params 0x02C = .dim 3 ∧ target State.reset.params 0x43FC = .elem 3 7 31 ∧
      target State.reset.params 0x00C = .cmd ∧ target State.reset.params 0x010 = .opa ∧
      target State.reset.params 0x014 = .opb := by decide

/-- irq rises at a completion and when IRQ_EN is set; it falls for each of the four reasons of R200. -/
theorem witness_IrqIsTheEnabledDoneLevel :
    let idle : State := { State.reset with ctrl := ⟨true, true⟩ }
    let done : State := { idle with status := ⟨false, true, false, false, .ok⟩ }
    irq (busy 1 idle) = false ∧ (nextState (step (next .engine (busy 1 idle)))).map irq = some true ∧
      (nextState (step (next (.host (.write 4 0x004 3)) { done with ctrl := ⟨true, false⟩ }))).map irq = some true ∧
      irq done = true ∧ (nextState (step (next (.host (.write 4 0x008 2)) done))).map irq = some false ∧
      (nextState (step (next (.host (.write 4 0x00C 1)) done))).map irq = some false ∧
      (nextState (step (next (.host (.write 4 0x004 1)) done))).map irq = some false ∧
      (nextState (step (next .reset done))).map irq = some false := by decide

theorem witness_LpivotIsLatchedAtAcceptanceOnly :
    let s : State := { State.reset with ctrl := ⟨false, false⟩ }
    (nextState (step (next (.host (.write 4 0x00C 1)) s))).map (·.lpivot) = some false ∧
      (nextState (step (next .reset { s with lpivot := false }))).map (·.lpivot) = some true ∧
      (nextState (step (next (.host (.write 4 0x004 0)) State.reset))).map (·.lpivot) = some true := by decide

theorem witness_ResIsWrittenByScalarCommandsOnly :
    (nextState (step (next .engine (busy 1 (scalar 7 0))))).map (·.res) = some 7 ∧
      (nextState (step (next .reset { State.reset with res := 7 }))).map (·.res) = some 0 := by decide

theorem witness_OperandsAreFrozenWhileBusy :
    let s := next (.host (.write 4 0x010 9)) (busy 1 State.reset)
    s.status.busy = true ∧ nextIsEngine s = false ∧ nextIsReset s = false ∧ ∃ t, step s = .next t :=
  ⟨rfl, rfl, rfl, _, rfl⟩

theorem witness_ResultsDoNotDependOnLatency :
    let s : State := { busy 0x2411 cipher with
      inbox := [Access.write 4 0x1000 9, .read 4 0x008, .poll].map Event.host ++ .engine :: [.reset] }
    s.status.busy = true ∧
      ∀ a ∈ [Access.write 4 0x1000 9, .read 4 0x008, .poll],
        a = .poll ∨ ∃ off : Offset, off.toNat % 4 = 0 ∧ (a = .read 4 off ∨ ∃ v, a = .write 4 off v) := by
  refine ⟨rfl, fun a ha => ?_⟩
  fin_cases ha
  · exact .inr ⟨0x1000, by decide, .inr ⟨9, rfl⟩⟩
  · exact .inr ⟨0x008, by decide, .inl rfl⟩
  · exact .inl rfl

/-- A reset during a pending command (R221). -/
theorem witness_ResetGivesEveryResetValue :
    (next .reset (busy 0x2411 cipher)).inbox = .reset :: [] ∧ (next .reset (busy 0x2411 cipher)).status.busy = true := by
  decide

theorem witness_IdIsAConstant : State.reset.params.Legal ∧ ∃ t, step State.reset = .next t := ⟨by decide, _, rfl⟩

/-- An idle, a pending and a completing state that meet the invariant. -/
theorem witness_EveryStepKeepsTheInvariant :
    Inv cipher ∧ Inv (busy 0x2411 cipher) ∧ (∃ t, step (next .engine (busy 0x2411 cipher)) = .next t) ∧
      ∃ t, step (next (.host (.write 4 0x1000 29)) cipher) = .next t :=
  ⟨by decide, by decide, ⟨_, rfl⟩, ⟨_, rfl⟩⟩

/-- A 1×1 source whose one minor is nonzero and one whose minor is 0. -/
theorem witness_MatinvWithoutSwappingNeedsLeadingMinors :
    (let s := { holding 0 1 1 [[7]] State.reset with lpivot := false };
      Inv s ∧ s.lpivot = false ∧ rows s 0 = 1 ∧ cols s 0 = 1) ∧
      (∀ k, 1 ≤ k → k ≤ 1 → (squareValue { holding 0 1 1 [[7]] State.reset with lpivot := false } 0 k).det ≠ 0) ∧
      (squareValue { holding 0 1 1 [[0]] State.reset with lpivot := false } 0 1).det = 0 := by
  refine ⟨by decide, fun k h1 h2 => ?_, ?_⟩
  · obtain rfl : k = 1 := Nat.le_antisymm h2 h1
    rw [Matrix.det_fin_one]
    decide
  · rw [Matrix.det_fin_one]
    decide

/-- V-I7: an invertible 3×3 source whose 2×2 leading minor is 0. -/
theorem witness_MatinvWithoutSwappingNeedsLeadingMinors_inner :
    (let s := { holding 0 3 3 [[2, 3, 1], [4, 6, 5], [1, 1, 1]] State.reset with lpivot := false };
      Inv s ∧ rows s 0 = 3 ∧ cols s 0 = 3) ∧
      (squareValue { holding 0 3 3 [[2, 3, 1], [4, 6, 5], [1, 1, 1]] State.reset with lpivot := false } 0 2).det = 0 ∧
      (squareValue { holding 0 3 3 [[2, 3, 1], [4, 6, 5], [1, 1, 1]] State.reset with lpivot := false } 0 3).det ≠ 0 := by
  rw [Matrix.det_fin_two, Matrix.det_fin_three]
  decide

theorem witness_AnOverRunKeepsItsResult :
    runOver (next .engine State.reset) = true ∧ nextIsReset (next .engine State.reset) = false ∧
      runOver State.reset = true ∧ nextIsReset State.reset = false ∧
      ∃ f, step (next (.host (.read 4 0x002)) State.reset) = .fault f := ⟨rfl, rfl, rfl, rfl, _, rfl⟩

/-- An idle state, and a pending command before WAITs that poll once and three times. -/
theorem witness_WaitPollsDoNotShowInTheResult :
    State.reset.status.busy = false ∧ (busy 1 State.reset).status.busy = true ∧
      (∀ n ∈ [0, 2], ∃ s : State, s.status.busy = true ∧ s.inbox = HostProgram.wait n ++ [HostProgram.rd 0x018]) :=
  ⟨rfl, rfl, fun n _ => ⟨{ busy 1 State.reset with inbox := HostProgram.wait n ++ [HostProgram.rd 0x018] }, rfl, rfl⟩⟩

end Sys2Proof.Tests
end

section
/-! SUPPORT. Every shared operation keeps the invariant of the block (10_state.md R39, R40, R42; 60_exceptions.md R190, R191, R193),
then every access, every command and every step does. -/

namespace Sys2Proof.Machine

theorem shapesLegal_iff (s : State) :
    shapesLegal s = true ↔ ∀ sl : SlotNo, (s.dim.get sl).legal s.params = true := by
  simp [shapesLegal, Fin.forall_fin_succ, and_assoc]

/-- Of STATUS the invariant asks only that BUSY and DONE are not both set (R190, R191). -/
theorem status_keeps_inv {s : State} (hi : Inv s) (st : Status) (hst : ¬(st.busy = true ∧ st.done = true)) :
    Inv { s with status := st } := by
  obtain ⟨hpar, hwf, hres, hshape, -⟩ := hi
  exact ⟨hpar, hwf, hres, hshape, hst⟩

theorem complete_keeps_inv {s : State} (hi : Inv s) (c : CompletionCode) : Inv (complete c s) :=
  status_keeps_inv hi (s.status.completed c) (by simp)

theorem setRes_keeps_inv {s : State} (hi : Inv s) (r : Residue) : Inv (setRes r s) := hi

theorem accept_keeps_inv {s : State} (hi : Inv s) (v : Word) : Inv (accept v s) :=
  status_keeps_inv hi s.status.accepted (by simp)

theorem blockAccess_keeps_inv {s : State} (hi : Inv s) : Inv (blockAccess s) := hi

/-- A write of STATUS can clear DONE but never sets BUSY or DONE (R35). -/
theorem writeOneToClear_keeps_inv {s : State} (hi : Inv s) (v : Word) :
    Inv { s with status := s.status.writeOneToClear v } := by
  obtain ⟨hpar, hwf, hres, hshape, hbd⟩ := hi
  refine ⟨hpar, hwf, hres, hshape, fun ⟨hb, hd⟩ => hbd ⟨hb, ?_⟩⟩
  rw [Status.writeOneToClear_done, Bool.and_eq_true] at hd
  exact hd.1

theorem setDim_keeps_inv {s : State} (hi : Inv s) (sl : SlotNo) {d : Dim} (hd : d.legal s.params = true) :
    Inv (setDim sl d s) := by
  obtain ⟨hpar, hwf, hres, hshape, hbd⟩ := hi
  rw [shapesLegal_iff] at hshape
  refine ⟨hpar, hwf, hres, (shapesLegal_iff _).mpr fun sl' => ?_, hbd⟩
  by_cases h : sl' = sl
  · subst h
    simpa using hd
  · simpa [dim_set_ne _ h] using hshape sl'

theorem setElem_keeps_inv {s : State} (hi : Inv s) (sl : SlotNo) (r : Residue) {i j : Nat} (hr : i < s.params.nmax)
    (hc : j < s.params.cmax) : Inv (setElem sl i j r s) := by
  obtain ⟨hpar, hwf, hres, hshape, hbd⟩ := hi
  obtain ⟨hwf', hres'⟩ := setElem_keeps_storage s hpar sl r hr hc ⟨hwf, hres⟩
  exact ⟨hpar, hwf', hres', hshape, hbd⟩

theorem setElems_keeps_inv {s : State} (hi : Inv s) (sl : SlotNo) (f : Nat → Nat → Residue) : Inv (setElems sl f s) := by
  obtain ⟨hpar, hwf, hres, hshape, hbd⟩ := hi
  obtain ⟨hwf', hres'⟩ := setElems_keeps_storage s hpar sl f ⟨hwf, hres⟩
  refine ⟨by simpa using hpar, hwf', by simpa using hres', ?_, by simpa using hbd⟩
  rw [shapesLegal_iff] at hshape ⊢
  simpa using hshape

theorem sentinel_legal (p : Params) : (Dim.mk 0 0).legal p = true := by simp [Dim.legal]

/-- A nonempty shape within NMAX and CMAX is legal, and fits the two bytes of DIM (R8, R39). -/
theorem dim_ofNat_legal {p : Params} (hp : p.Legal) {m k : Nat} (hm0 : 1 ≤ m) (hm : m ≤ p.nmax) (hk0 : 1 ≤ k)
    (hk : k ≤ p.cmax) : (Dim.mk (BitVec.ofNat 8 m) (BitVec.ofNat 8 k)).legal p = true := by
  obtain ⟨-, hn, -, hc, -⟩ := hp
  have hm' : m % 256 = m := Nat.mod_eq_of_lt (by omega)
  have hk' : k % 256 = k := Nat.mod_eq_of_lt (by omega)
  simp [Dim.legal, hm', hk', hm0, hm, hk0, hk]

theorem setSentinel_keeps_inv {s : State} (hi : Inv s) (sl : SlotNo) : Inv (setSentinel sl s) :=
  setElems_keeps_inv (setDim_keeps_inv hi sl (sentinel_legal _)) sl _

/-- A write-back of a result within the limits of a slot (R47). -/
theorem writeResult_keeps_inv {s : State} (hi : Inv s) (sl : SlotNo) {m k : Nat} (X : Mat) (hm0 : 1 ≤ m)
    (hm : m ≤ s.params.nmax) (hk0 : 1 ≤ k) (hk : k ≤ s.params.cmax) : Inv (writeResult sl m k X s) :=
  setElems_keeps_inv (setDim_keeps_inv hi sl (dim_ofNat_legal hi.1 hm0 hm hk0 hk)) sl _

/-- The parameters stay legal, and everything else is at its reset value (R220). -/
theorem resetBlock_keeps_inv {s : State} (hi : Inv s) : Inv (resetBlock s) := by
  obtain ⟨hpar, -⟩ := hi
  refine ⟨hpar, rfl, rfl, (shapesLegal_iff _).mpr fun sl => ?_, by simp [State.reset]⟩
  have hreset : (resetBlock s).dim.get sl = ⟨0, 0⟩ := by
    rw [resetBlock_dim]
    revert sl
    decide
  rw [hreset]
  exact sentinel_legal _

/-- No command breaks the invariant: a result's shape comes from the legal shapes of its sources (R158, R173, R193). -/
theorem exec_keeps_inv {i : Instr} {s t : State} (hi : Inv s) (h : exec i s = .next t) : Inv t := by
  obtain ⟨c, ⟨r, rfl⟩ | ⟨sl, rfl⟩ | ⟨sl, sa, sb, X, -, hra, hrb, rfl⟩⟩ := exec_cases h
  · exact complete_keeps_inv (setRes_keeps_inv hi r) c
  · exact complete_keeps_inv (setSentinel_keeps_inv hi sl) c
  · have ha := rows_le s hi sa
    have hb := rows_le s hi sb
    exact complete_keeps_inv
      (writeResult_keeps_inv hi sl X (by omega) (by omega) (by omega) (by omega)) c

theorem memRead_keeps_inv {s : State} (hi : Inv s) (off : Offset) : Inv (memRead off s).2 := by
  rcases memRead_cases off s with ⟨-, -, h⟩ | ⟨-, h⟩
  · rw [h]
    exact blockAccess_keeps_inv hi
  · rw [h]
    exact hi

/-- An unblocked aligned write: DIM takes a legal shape (R40) and an element word a residue (R43), whatever the Host writes. -/
theorem writeTarget_keeps_inv {s : State} (hi : Inv s) {off : Offset} (ha : off.toNat % 4 = 0) (v : Word) :
    Inv (writeTarget v s (target s.params off)) := by
  cases ht : target s.params off with
  | id | res | empty | ctrl | opa | opb => exact hi
  | status => exact writeOneToClear_keeps_inv hi v
  | cmd => exact accept_keeps_inv hi v
  | dim sl => exact setDim_keeps_inv hi sl (dimOfWord_legal _ v)
  | elem sl i j =>
    obtain ⟨hr, hc, -, -⟩ := elem_of_target hi.1 ha ht
    exact setElem_keeps_inv hi sl _ hr hc

theorem memWrite_keeps_inv {s : State} (hi : Inv s) {off : Offset} (ha : off.toNat % 4 = 0) (v : Word) :
    Inv (memWrite off v s) := by
  rcases memWrite_cases off v s with ⟨-, -, h⟩ | ⟨-, h⟩
  · rw [h]
    exact blockAccess_keeps_inv hi
  · rw [h]
    exact writeTarget_keeps_inv hi ha v

theorem waitPoll_keeps_inv {s : State} (hi : Inv s) : Inv (waitPoll s) := by
  rcases waitPoll_cases s with ⟨-, h⟩ | ⟨-, h⟩ <;> rw [h] <;> exact hi

/-- The schedule is no part of the invariant: taking an event off it keeps the invariant. -/
theorem inbox_keeps_inv {s : State} (hi : Inv s) (l : List Event) : Inv { s with inbox := l } := hi

/-- Settles O45, one case for each kind of event a step can take: the idle Engine, a completion, a read, a write, a poll, the
reset. -/
theorem everyStepKeepsTheInvariant : Obligations.EveryStepKeepsTheInvariant := by
  intro s t hi h
  rcases step_cases h with ⟨-, -, rfl⟩ | ⟨-, -, ⟨i, -, hx⟩ | ⟨e, -, rfl⟩⟩ | ⟨off, rest, -, -, rfl⟩ |
    ⟨off, v, rest, -, ha, rfl⟩ | ⟨rest, -, rfl⟩ | ⟨rest, -, rfl⟩
  · exact inbox_keeps_inv hi _
  · exact exec_keeps_inv (inbox_keeps_inv hi _) hx
  · exact complete_keeps_inv (inbox_keeps_inv hi _) _
  · exact memRead_keeps_inv (inbox_keeps_inv hi rest) off
  · exact memWrite_keeps_inv (inbox_keeps_inv hi rest) ha v
  · exact waitPoll_keeps_inv (inbox_keeps_inv hi rest)
  · exact resetBlock_keeps_inv (inbox_keeps_inv hi rest)

end Sys2Proof.Machine
end

section
/-! SUPPORT. The kind of a state's next step, read off the schedule, and what a step of each kind leaves: the reasons that the tables
of 10_state.md (R35, R38, R45) give for a change are kinds, and two of them never apply to one step. -/

namespace Sys2Proof.Machine

/-- What the next event does to the block. -/
inductive StepKind where
  /-- The Engine completes the pending command (R191). -/
  | completes
  /-- A write of v to CMD is accepted (R190). -/
  | accepts (v : Word)
  /-- A write of v to STATUS clears bits (R35). -/
  | clears (v : Word)
  /-- A Host access is blocked (R199). -/
  | blocks
  /-- The reset input (R220). -/
  | resets
  /-- Anything else: no STATUS bit, RES or LPIVOT depends on it. -/
  | quiet

/-- The kind of the next step. -/
def stepKind (s : State) : StepKind :=
  match s.inbox with
  | [] => if s.status.busy then .completes else .quiet
  | .engine :: _ => if s.status.busy then .completes else .quiet
  | .reset :: _ => .resets
  | .host .poll :: _ => .quiet
  | .host (.read _ _) :: _ => if nextIsBlocked s then .blocks else .quiet
  | .host (.write size off v) :: _ =>
    if nextIsBlocked s then .blocks
    else if size = 4 ∧ off = 0x00C then .accepts v
    else if size = 4 ∧ off = 0x008 then .clears v
    else .quiet

section
variable {s : State} {rest : List Event}

theorem stepKind_of_engine (h : nextIsEngine s = true) :
    stepKind s = if s.status.busy then .completes else .quiet := by
  unfold nextIsEngine at h
  unfold stepKind
  split at h <;> simp_all

theorem stepKind_of_reset (hin : s.inbox = .reset :: rest) : stepKind s = .resets := by
  simp [stepKind, hin]

theorem stepKind_of_poll (hin : s.inbox = .host .poll :: rest) : stepKind s = .quiet := by
  simp [stepKind, hin]

theorem stepKind_of_read {size : Nat} {off : Offset} (hin : s.inbox = .host (.read size off) :: rest) :
    stepKind s = if nextIsBlocked s then .blocks else .quiet := by
  simp [stepKind, hin]

theorem nextIsBlocked_of_read {off : Offset} (hin : s.inbox = .host (.read 4 off) :: rest) (ha : off.toNat % 4 = 0) :
    nextIsBlocked s = (s.status.busy && (target s.params off).readBlocks) := by
  simp [nextIsBlocked, hin, accessDefined, ha]

theorem nextIsBlocked_of_write {off : Offset} {v : Word} (hin : s.inbox = .host (.write 4 off v) :: rest)
    (ha : off.toNat % 4 = 0) : nextIsBlocked s = (s.status.busy && (target s.params off).writeBlocks) := by
  simp [nextIsBlocked, hin, accessDefined, ha]

/-- A write of CMD is an acceptance or blocked (R190, R199). -/
theorem stepKind_of_cmd_write {v : Word} (hin : s.inbox = .host (.write 4 0x00C v) :: rest) :
    stepKind s = if s.status.busy then .blocks else .accepts v := by
  have hb : nextIsBlocked s = s.status.busy := by
    rw [nextIsBlocked_of_write hin rfl, target_cmd]
    exact Bool.and_true _
  simp [stepKind, hin, hb]

/-- A write of STATUS is never blocked (R76). -/
theorem stepKind_of_status_write {v : Word} (hin : s.inbox = .host (.write 4 0x008 v) :: rest) :
    stepKind s = .clears v := by
  have hb : nextIsBlocked s = false := by
    rw [nextIsBlocked_of_write hin rfl, target_status]
    exact Bool.and_false _
  simp [stepKind, hin, hb]

theorem stepKind_of_other_write {size : Nat} {off : Offset} {v : Word}
    (hin : s.inbox = .host (.write size off v) :: rest) (hcmd : ¬(size = 4 ∧ off = 0x00C))
    (hst : ¬(size = 4 ∧ off = 0x008)) : stepKind s = if nextIsBlocked s then .blocks else .quiet := by
  simp only [stepKind, hin, if_neg hcmd, if_neg hst]

end

theorem stepKind_completes_iff (s : State) :
    stepKind s = .completes ↔ nextIsEngine s = true ∧ s.status.busy = true := by
  constructor
  · intro h
    unfold stepKind at h
    split at h <;> grind [nextIsEngine]
  · rintro ⟨he, hb⟩
    simp [stepKind_of_engine he, hb]

theorem stepKind_resets_iff (s : State) : stepKind s = .resets ↔ nextIsReset s = true := by
  unfold stepKind nextIsReset
  split <;> grind

theorem stepKind_blocks_iff (s : State) : stepKind s = .blocks ↔ nextIsBlocked s = true := by
  constructor
  · intro h
    unfold stepKind at h
    split at h <;> grind
  · intro h
    unfold stepKind
    split <;> grind [nextIsBlocked]

theorem stepKind_accepts_iff (s : State) (v : Word) :
    stepKind s = .accepts v ↔ s.status.busy = false ∧ nextIsWrite s 0x00C v := by
  constructor
  · intro h
    have hw : nextIsWrite s 0x00C v := by
      unfold stepKind at h
      split at h <;> grind [nextIsWrite]
    obtain ⟨rest, hin⟩ := hw
    rw [stepKind_of_cmd_write hin] at h
    refine ⟨?_, rest, hin⟩
    grind
  · rintro ⟨hb, rest, hin⟩
    simp [stepKind_of_cmd_write hin, hb]

theorem stepKind_clears_iff (s : State) (v : Word) :
    stepKind s = .clears v ↔ nextIsWrite s 0x008 v := by
  constructor
  · intro h
    unfold stepKind at h
    split at h <;> grind [nextIsWrite]
  · rintro ⟨rest, hin⟩
    exact stepKind_of_status_write hin

/-- What a step of a kind leaves, by the next state it answers. -/
inductive StepEffect (s : State) : StepKind → State → Prop where
  /-- A legal word runs (R191). -/
  | runs {i : Instr} {t : State} (hd : decode s.cmd = .ok i) (hx : exec i { s with inbox := s.inbox.tail } = .next t) :
    StepEffect s .completes t
  /-- An illegal word completes with ILLEGAL (R105, R191). -/
  | illegal {e : IllegalWord} (hd : decode s.cmd = .error e) :
    StepEffect s .completes (complete .illegal { s with inbox := s.inbox.tail })
  /-- An acceptance (R190). -/
  | accepted (v : Word) (l : List Event) : StepEffect s (.accepts v) (accept v { s with inbox := l })
  /-- A write of STATUS (R35). -/
  | cleared (v : Word) (l : List Event) :
    StepEffect s (.clears v) { s with inbox := l, status := s.status.writeOneToClear v }
  /-- A blocked write, or a blocked read, which also gives the Host a value (R199). -/
  | blocked (l : List Event) (r : List Word) :
    StepEffect s .blocks { blockAccess s with inbox := l, reads := r }
  /-- A reset (R220). -/
  | reset (l : List Event) : StepEffect s .resets (resetBlock { s with inbox := l })
  /-- A read, a poll, an ignored write or an idle Engine: only what is recorded of the outside changes. -/
  | recorded (l : List Event) (r : List Word) (p : List (Nat × Word)) :
    StepEffect s .quiet { s with inbox := l, reads := r, busyPolls := p }
  /-- A write of CTRL (R32). -/
  | controlled (c : Ctrl) (l : List Event) : StepEffect s .quiet { s with inbox := l, ctrl := c }
  /-- A write of an operand, a shape or an element, which BUSY = 1 does not let through (R76). -/
  | loaded (hb : s.status.busy = false) (l : List Event) (a b : Word) (d : Vector Dim 4) (m : Memory) :
    StepEffect s .quiet { s with inbox := l, opa := a, opb := b, dim := d, mem := m }

/-- A read is blocked, or it only gives the Host a value (R75). -/
theorem StepEffect.of_read {s : State} {off : Offset} {rest : List Event}
    (hin : s.inbox = .host (.read 4 off) :: rest) (ha : off.toNat % 4 = 0) :
    StepEffect s (stepKind s) { (memRead off { s with inbox := rest }).2 with
      reads := s.reads ++ [(memRead off { s with inbox := rest }).1] } := by
  rw [stepKind_of_read hin, nextIsBlocked_of_read hin ha]
  rcases memRead_cases off { s with inbox := rest } with ⟨hr, hb, e⟩ | ⟨hnb, e⟩
  · rw [e, if_pos (Bool.and_eq_true_iff.mpr ⟨hb, hr⟩)]
    exact .blocked rest _
  · rw [e, if_neg (by grind)]
    exact .recorded rest _ _

/-- The cases of a write, each with its kind (R76). -/
theorem StepEffect.of_write {s : State} {off : Offset} {v : Word} {rest : List Event}
    (hin : s.inbox = .host (.write 4 off v) :: rest) (ha : off.toNat % 4 = 0) :
    StepEffect s (stepKind s) (memWrite off v { s with inbox := rest }) := by
  rcases memWrite_effects off v { s with inbox := rest } with ⟨hw, hb, e⟩ | ⟨rfl, hb, e⟩ | ⟨rfl, e⟩ | ⟨rfl, e⟩ |
    ⟨hc, hs, -, hbusy, hnb, a, b, d, m, e⟩
  · have hk : stepKind s = .blocks := by
      rw [stepKind_blocks_iff, nextIsBlocked_of_write hin ha]
      exact Bool.and_eq_true_iff.mpr ⟨hb, hw⟩
    rw [e, hk]
    exact .blocked rest _
  · rw [e, (stepKind_accepts_iff s v).mpr ⟨hb, rest, hin⟩]
    exact .accepted v rest
  · rw [e, stepKind_of_status_write hin]
    exact .cleared v rest
  · have hk : stepKind s = .quiet := by
      rw [stepKind_of_other_write hin (by decide) (by decide), nextIsBlocked_of_write hin ha, target_ctrl]
      simp [Target.writeBlocks]
    rw [e, hk]
    exact .controlled _ rest
  · have hk : stepKind s = .quiet := by
      rw [stepKind_of_other_write hin (by tauto) (by tauto), nextIsBlocked_of_write hin ha]
      grind
    rw [hk]
    cases hb : s.status.busy
    · rw [e]
      exact .loaded hb rest a b d m
    · rw [hbusy hb]
      exact .recorded rest _ _

/-- Every step that goes on has the effect of its kind. -/
theorem step_effect {s t : State} (h : step s = .next t) : StepEffect s (stepKind s) t := by
  rcases step_cases h with ⟨he, hb, rfl⟩ | ⟨he, hb, ⟨i, hd, hx⟩ | ⟨e, hd, rfl⟩⟩ | ⟨off, rest, hin, ha, rfl⟩ |
    ⟨off, v, rest, hin, ha, rfl⟩ | ⟨rest, hin, rfl⟩ | ⟨rest, hin, rfl⟩
  · rw [stepKind_of_engine he, hb]
    exact .recorded _ _ _
  · rw [(stepKind_completes_iff s).mpr ⟨he, hb⟩]
    exact .runs hd hx
  · rw [(stepKind_completes_iff s).mpr ⟨he, hb⟩]
    exact .illegal hd
  · exact .of_read hin ha
  · exact .of_write hin ha
  · rw [stepKind_of_poll hin]
    rcases waitPoll_cases { s with inbox := rest } with ⟨-, e⟩ | ⟨-, e⟩ <;> rw [e] <;> exact .recorded rest _ _
  · rw [stepKind_of_reset hin]
    exact .reset rest

/-- A completing step keeps everything but STATUS, RES and slots, and ends the command with some code (R191). -/
theorem StepEffect.of_completes {s t : State} (h : StepEffect s .completes t) :
    t.params = s.params ∧ t.lpivot = s.lpivot ∧
      ∃ c, t.status = s.status.completed c ∧ ((∃ e, decode s.cmd = .error e) → c = .illegal) := by
  cases h with
  | runs hd hx =>
    obtain ⟨hpar, -, -, -, -, hlp, -, -, -, c, hst⟩ := exec_frame hx
    exact ⟨hpar, hlp, c, hst, fun ⟨e, he⟩ => by simp [hd] at he⟩
  | illegal hd => exact ⟨rfl, rfl, .illegal, rfl, fun _ => rfl⟩

/-- An acceptance, in the words of the obligations, is a kind of step (R190). -/
theorem acceptance_iff_stepKind (s : State) :
    (s.status.busy = false ∧ ∃ v, nextIsWrite s 0x00C v) ↔ ∃ v, stepKind s = .accepts v := by
  simp [stepKind_accepts_iff]

/-- So is a write of 1 to a bit of STATUS (R35). -/
theorem statusClear_iff_stepKind (s : State) (k : Nat) :
    (∃ v, nextIsWrite s 0x008 v ∧ v.getLsbD k = true) ↔ ∃ v, stepKind s = .clears v ∧ v.getLsbD k = true := by
  simp only [stepKind_clears_iff]

/-- The word of STATUS as a number (R35). -/
theorem statusWord_toNat (x : Status) :
    x.toWord.toNat =
      x.busy.toNat + 2 * x.done.toNat + 4 * x.err.toNat + 8 * x.busyacc.toNat + 256 * x.ecode.bits.toNat := by
  have := x.ecode.bits.isLt
  show ((0#20 ++ x.ecode.bits ++ 0#4 ++ BitVec.ofBool x.busyacc ++ BitVec.ofBool x.err ++ BitVec.ofBool x.done ++
    BitVec.ofBool x.busy : BitVec 32)).toNat = _
  simp only [append_toNat, BitVec.toNat_ofNat, BitVec.toNat_ofBool]
  omega

/-- Settles O36: the reasons of R35's table are the kinds of a step, and each kind leaves one STATUS. -/
theorem statusBitsChangeOnlyAsTabled : Obligations.StatusBitsChangeOnlyAsTabled := by
  refine ⟨fun s => ?_, fun s t h => ?_⟩
  · rw [← statusWord_toNat, BitVec.ofNat_toNat, BitVec.setWidth_eq]
    exact hostRead_eq 0x008 s rfl
  · simp only [acceptance_iff_stepKind, statusClear_iff_stepKind, ← stepKind_completes_iff,
      ← stepKind_resets_iff, ← stepKind_blocks_iff]
    have he := step_effect h
    generalize stepKind s = k at he
    cases k with
    | completes =>
      obtain ⟨-, -, c, hst, hc⟩ := he.of_completes
      simp only [hst]
      grind [Status.completed]
    | accepts v => cases he; simp
    | clears v => cases he; simp +contextual
    | blocks => cases he; simp [Status.blocked]
    | resets => cases he; simp [State.reset]
    | quiet => cases he <;> simp

/-- Settles O39 by the kinds of a step: an acceptance takes CTRL.PIVOT, a reset gives 1, every other kind keeps LPIVOT. -/
theorem lpivotIsLatchedAtAcceptanceOnly : Obligations.LpivotIsLatchedAtAcceptanceOnly := by
  intro s t h
  rw [acceptance_iff_stepKind, ← Bool.not_eq_true, ← stepKind_resets_iff]
  have he := step_effect h
  generalize stepKind s = k at he
  cases k with
  | completes =>
    obtain ⟨-, hlp, -⟩ := he.of_completes
    simp [hlp]
  | accepts | clears | blocks | resets | quiet => cases he <;> simp [State.reset]

/-- A command other than the five scalar ones leaves RES (R38). -/
theorem exec_res {i : Instr} {s t : State} (h : exec i s = .next t) :
    i ∈ [Instr.mred, .madd, .msub, .mmul, .minv] ∨ t.res = s.res := by
  cases i with
  | mred | madd | msub | mmul | minv => simp
  | matinv sd sa =>
    right
    rcases execMatinv_cases sd sa s with ⟨-, e⟩ | ⟨-, -, ⟨-, e⟩ | ⟨X, -, e⟩⟩ <;>
      simp [← next_inj (e.symm.trans h)]
  | matmul sd sa sb =>
    right
    rcases execMatmul_cases sd sa sb s with ⟨-, e⟩ | ⟨-, -, -, e⟩ <;> simp [← next_inj (e.symm.trans h)]

/-- Settles O40: of the effects a step can have, only the run of a scalar command and the reset write RES. -/
theorem resIsWrittenByScalarCommandsOnly : Obligations.ResIsWrittenByScalarCommandsOnly := by
  intro s t h hne
  rw [← and_assoc, ← stepKind_completes_iff, ← stepKind_resets_iff]
  have he := step_effect h
  generalize stepKind s = k at he
  cases he with
  | runs hd hx =>
    rcases exec_res hx with hi | hr
    · exact .inl ⟨rfl, _, hi, hd⟩
    · exact absurd hr hne
  | reset l => exact .inr ⟨rfl, rfl⟩
  | illegal | accepted | cleared | blocked | recorded | controlled | loaded => exact absurd rfl hne

/-- Settles O41: with no completion and no reset next, BUSY = 1 leaves only the effects that write STATUS, CTRL or the record of
the outside. -/
theorem operandsAreFrozenWhileBusy : Obligations.OperandsAreFrozenWhileBusy := by
  intro s t hb hne hnr h
  have hc : stepKind s ≠ .completes := by simp [stepKind_completes_iff, hne]
  have ha : ∀ v, stepKind s ≠ .accepts v := by simp [stepKind_accepts_iff, hb]
  have hr : stepKind s ≠ .resets := by simp [stepKind_resets_iff, hnr]
  have he := step_effect h
  generalize stepKind s = k at he hc ha hr
  cases he with
  | runs | illegal => exact absurd rfl hc
  | accepted v => exact absurd rfl (ha v)
  | reset => exact absurd rfl hr
  | loaded hb' => simp [hb] at hb'
  | cleared | blocked | recorded | controlled => simp +contextual [hb]

/-- Settles O44: the word of ID from its four bytes, the ignored write, and the parameters over every effect of a step. -/
theorem idIsAConstant : Obligations.IdIsAConstant := by
  refine ⟨fun s hp => ⟨idWord s.params, hostRead_eq 0x000 s rfl, ?_⟩, fun s v => hostWrite_eq 0x000 v s rfl,
    fun s t h => ?_⟩
  · rw [idWord_toNat s.params hp]
    obtain ⟨-, hn, -, hc, -⟩ := hp
    omega
  · have he := step_effect h
    generalize stepKind s = k at he
    cases k with
    | completes => exact he.of_completes.1
    | accepts | clears | blocks | resets | quiet => cases he <;> rfl

end Sys2Proof.Machine
end

section
/-! SUPPORT. What is written into slots: the shape and the elements, by the write-back primitives (10_state.md R47, R48) and by the
Host (R40, R43, R44). -/

namespace Sys2Proof.Machine

/-- Settles O25 with the laws of writeResult and setSentinel; completing a command changes only STATUS, of which slotFrame and
sentinelIn say nothing. -/
theorem slotWriteBackFillsOneSlot : Obligations.SlotWriteBackFillsOneSlot := by
  intro s sl hp
  refine ⟨fun m k X _ hm _ hk => ⟨?_, ?_, slotFrame_writeResult s sl m k X .ok, by simp, fun i j hi hj => ?_⟩,
    sentinelIn_setSentinel s sl .ok, slotFrame_setSentinel s sl .ok, by simp⟩
  · obtain ⟨-, hn, -⟩ := hp
    exact rows_writeResult s sl X (by omega)
  · obtain ⟨-, -, -, hc, -⟩ := hp
    exact cols_writeResult s sl X (by omega)
  · rw [elemByte_writeResult s hp sl m k X hi hj, residueByte_toNat]
    split <;> rfl

/-- A legal shape in the numbers of the word (R40). -/
theorem dimOfWord_eq (p : Params) (v : Word) :
    dimOfWord p v =
      if (v.toNat % 256 = 0 ∧ v.toNat / 256 % 256 = 0) ∨
          (1 ≤ v.toNat % 256 ∧ v.toNat % 256 ≤ p.nmax ∧ 1 ≤ v.toNat / 256 % 256 ∧ v.toNat / 256 % 256 ≤ p.cmax) then
        ⟨BitVec.ofNat 8 (v.toNat % 256), BitVec.ofNat 8 (v.toNat / 256 % 256)⟩
      else ⟨0, 0⟩ := by
  have hr : v.extractLsb' 0 8 = BitVec.ofNat 8 (v.toNat % 256) := BitVec.eq_of_toNat_eq (by simp)
  have hc : v.extractLsb' 8 8 = BitVec.ofNat 8 (v.toNat / 256 % 256) :=
    BitVec.eq_of_toNat_eq (by simp [Nat.shiftRight_eq_div_pow])
  unfold dimOfWord
  rw [hr, hc]
  refine if_congr ?_ rfl rfl
  simp [Dim.legal, ← BitVec.toNat_inj, and_assoc]

section
variable {s : State} {off : Offset} {v : Word}

/-- A write that BUSY = 1 drops only sets BUSYACC (R76, R199). -/
theorem hostWrite_blocked (ha : off.toNat % 4 = 0) (hw : (target s.params off).writeBlocks = true)
    (hb : s.status.busy = true) : hostWrite off v s = .next (blockAccess s) := by
  rw [hostWrite_eq off v s ha, memWrite, hw, hb]
  rfl

/-- An idle block takes every write (R76). -/
theorem hostWrite_idle (ha : off.toNat % 4 = 0) (hb : s.status.busy = false) :
    hostWrite off v s = .next (writeTarget v s (target s.params off)) := by
  simp [hostWrite_eq off v s ha, memWrite, hb]

/-- A read that BUSY = 1 does not let through returns 0 and sets BUSYACC (R75, R199). -/
theorem hostRead_blocked (ha : off.toNat % 4 = 0) (hr : (target s.params off).readBlocks = true)
    (hb : s.status.busy = true) : hostRead off s = .next { blockAccess s with reads := s.reads ++ [0] } := by
  rw [hostRead_eq off s ha, memRead, hr, hb]
  rfl

/-- An idle block answers every read with the target's value (R75). -/
theorem hostRead_idle (ha : off.toNat % 4 = 0) (hb : s.status.busy = false) :
    hostRead off s = .next { s with reads := s.reads ++ [readTarget s (target s.params off)] } := by
  simp [hostRead_eq off s ha, memRead, hb]

end

/-- Settles O30: the blocked write, and the idle one by the two cases of the shape it stores. -/
theorem dimWriteSetsALegalShape : Obligations.DimWriteSetsALegalShape := by
  intro s sl v r c
  have ha := dimOffset_aligned sl
  have ht := target_dimOffset s.params sl
  refine ⟨fun hb => hostWrite_blocked ha (by rw [ht]; rfl) hb, fun hb => ⟨_, hostWrite_idle ha hb, ?_⟩⟩
  rw [ht, writeTarget, dimOfWord_eq]
  refine ⟨fun hl => ?_, fun hl => ?_, fun sl' hne => ?_, rfl⟩
  · simp only [rows, cols, setDim_dim, dim_set_same]
    rw [if_pos hl]
    simp [r, c]
  · simp only [rows, cols, setDim_dim, dim_set_same]
    rw [if_neg hl]
    simp
  · simp [dim_set_ne _ hne]

@[simp] theorem elemByte_setElem_same (s : State) (sl : SlotNo) (i j : Nat) (r : Residue) :
    elemByte (setElem sl i j r s) sl i j = residueByte r :=
  Memory.read_write_same _ _ _

/-- A stored residue read back as a word (R44). -/
@[simp] theorem residueByte_setWidth (r : Residue) : (residueByte r).setWidth 32 = zext32 r :=
  BitVec.eq_of_toNat_eq (by simp; omega)

/-- Settles O31: the write stores mod29 in the element's byte, and the read gives that byte back. -/
theorem elementsAreStoredNormalized : Obligations.ElementsAreStoredNormalized := by
  intro s sl i j v hp hi hj
  have ha := elemOffset_aligned s.params hp sl hi hj
  have ht := target_elemOffset s.params hp sl hi hj
  refine ⟨fun hb => ⟨setElem sl i j (mod29 (sint v)) s, ?_, ?_, rfl, fun a hne => ?_, ?_⟩, fun hb => ?_,
    fun hb => ⟨?_, ?_⟩⟩
  · rw [hostWrite_idle ha hb, ht, writeTarget]
  · rw [elemByte_setElem_same, residueByte_toNat, mod29_val, sint]
  · exact Memory.read_write_ne _ _ hne
  · rw [hostRead_idle ha (by simpa using hb), setElem_params, ht, readTarget, elemByte_setElem_same, residueByte_setWidth]
    rfl
  · rw [hostRead_idle ha hb, ht, readTarget]
  · exact hostWrite_blocked ha (by rw [ht]; rfl) hb
  · exact hostRead_blocked ha (by rw [ht]; rfl) hb

end Sys2Proof.Machine
end

section
/-! SUPPORT. When a step stops and when it goes on (20_memory.md R77; 60_exceptions.md R205), and what a step leaves of the
schedule. -/

namespace Sys2Proof.Machine

/-- Which events are bus errors (R77). -/
theorem nextIsBusError_iff (s : State) :
    nextIsBusError s = true ↔
      ∃ (size : Nat) (off : Offset) (rest : List Event), ¬(size = 4 ∧ off.toNat % 4 = 0) ∧
        (s.inbox = .host (.read size off) :: rest ∨ ∃ v, s.inbox = .host (.write size off v) :: rest) := by
  constructor
  · intro h
    unfold nextIsBusError at h
    split at h
    case h_1 size off rest hin => exact ⟨size, off, rest, by simpa [← accessDefined_iff] using h, .inl hin⟩
    case h_2 size off v rest hin => exact ⟨size, off, rest, by simpa [← accessDefined_iff] using h, .inr ⟨v, hin⟩⟩
    all_goals cases h
  · rintro ⟨size, off, rest, hbad, hin | ⟨v, hin⟩⟩ <;> simpa [nextIsBusError, hin, ← accessDefined_iff] using hbad

/-- A bus error ends the run (R77). -/
theorem step_of_busError {s : State} (h : nextIsBusError s = true) : step s = .fault .busError := by
  obtain ⟨size, off, rest, hbad, hin | ⟨v, hin⟩⟩ := (nextIsBusError_iff s).mp h <;>
    rw [← accessDefined_iff] at hbad <;> simp [step, hin, hostAccess, hbad]

/-- The Engine's turn never stops, whether it idles, runs a command or completes an illegal word (R191, R203, R205). -/
theorem engineTurn_answers (s : State) : ∃ t, engineTurn s = .next t := by
  unfold engineTurn completion
  split
  · split
    · exact exec_answers _ s
    · exact ⟨_, rfl⟩
  · exact ⟨_, rfl⟩

/-- Every other step goes on (R205). -/
theorem step_answers {s : State} (h : nextIsBusError s = false) : ∃ t, step s = .next t := by
  unfold step
  unfold nextIsBusError at h
  split
  · exact engineTurn_answers s
  · next a rest hin =>
    cases a with
    | read size off => exact ⟨_, if_pos (by simpa [hin] using h)⟩
    | write size off v => exact ⟨_, if_pos (by simpa [hin] using h)⟩
    | poll => exact ⟨_, rfl⟩
  · exact engineTurn_answers _
  · exact ⟨_, rfl⟩

/-- Settles O32: a step is a bus error's fault, or it goes on. -/
theorem onlyAlignedWordAccessesAreDefined : Obligations.OnlyAlignedWordAccessesAreDefined := by
  intro s
  rw [← nextIsBusError_iff]
  cases h : nextIsBusError s
  · obtain ⟨t, ht⟩ := step_answers h
    simp [ht]
  · have hf := step_of_busError h
    refine ⟨iff_of_true ⟨_, hf⟩ rfl, fun f hf' => ?_, by simp [hf]⟩
    cases hf.symm.trans hf'
    rfl

theorem memRead_inbox (off : Offset) (s : State) : (memRead off s).2.inbox = s.inbox := by
  rcases memRead_cases off s with ⟨-, -, h⟩ | ⟨-, h⟩
  · rw [h, blockAccess_inbox]
  · rw [h]

theorem memWrite_inbox (off : Offset) (v : Word) (s : State) : (memWrite off v s).inbox = s.inbox := by
  rcases memWrite_effects off v s with ⟨-, -, h⟩ | ⟨-, -, h⟩ | ⟨-, h⟩ | ⟨-, h⟩ | ⟨-, -, -, -, -, a, b, d, m, h⟩ <;>
    rw [h] <;> rfl

theorem waitPoll_inbox (s : State) : (waitPoll s).inbox = s.inbox := by
  rcases waitPoll_cases s with ⟨-, h⟩ | ⟨-, h⟩ <;> rw [h]

/-- A step takes one event off the schedule and adds none (R80). -/
theorem step_inbox {s t : State} (h : step s = .next t) : t.inbox = s.inbox.tail := by
  rcases step_cases h with ⟨-, -, rfl⟩ | ⟨-, -, ⟨i, -, hx⟩ | ⟨e, -, rfl⟩⟩ | ⟨off, rest, hin, -, rfl⟩ |
    ⟨off, v, rest, hin, -, rfl⟩ | ⟨rest, hin, rfl⟩ | ⟨rest, hin, rfl⟩
  · rfl
  · obtain ⟨-, -, -, -, -, -, hbox, -⟩ := exec_frame hx
    exact hbox
  · rfl
  · simp [hin, memRead_inbox]
  · simp [hin, memWrite_inbox]
  · simp [hin, waitPoll_inbox]
  · simp [hin]

end Sys2Proof.Machine
end

section
/-! SUPPORT. A command's result and its latency (20_memory.md R80, R82; 70_reset_and_hazards.md R228). While a command is pending
an access can change nothing that the completion reads, so the completion finds the same operands however late it falls. -/

namespace Sys2Proof.Machine

/-- What a pending completion reads is the same in two states: the command word and its operands (R191). -/
def SamePending (s t : State) : Prop := s.cmd = t.cmd ∧ SameOperands s t

theorem SamePending.refl (s : State) : SamePending s s := ⟨rfl, rfl, rfl, rfl, rfl, rfl, rfl, rfl⟩

theorem SamePending.trans {s t u : State} (h : SamePending s t) (h' : SamePending t u) : SamePending s u := by
  obtain ⟨hcmd, hpar, hopa, hopb, hres, hdim, hmem, hlp⟩ := h
  obtain ⟨hcmd', hpar', hopa', hopb', hres', hdim', hmem', hlp'⟩ := h'
  exact ⟨hcmd.trans hcmd', hpar.trans hpar', hopa.trans hopa', hopb.trans hopb', hres.trans hres', hdim.trans hdim',
    hmem.trans hmem', hlp.trans hlp'⟩

/-- An access that is defined for the block, made while a command is pending, leaves the command pending with what it reads. -/
theorem step_access_while_busy {s : State} {a : Access} {rest : List Event} (hb : s.status.busy = true)
    (hin : s.inbox = .host a :: rest) (hd : nextIsBusError s = false) :
    ∃ t, step s = .next t ∧ t.inbox = rest ∧ t.status.busy = true ∧ SamePending t s := by
  obtain ⟨t, ht⟩ := step_answers hd
  have he : nextIsEngine s = false := by simp [nextIsEngine, hin]
  have hr : nextIsReset s = false := by simp [nextIsReset, hin]
  obtain ⟨hb', hpar, hcmd, hopa, hopb, hres, hdim, hmem, hlp, -⟩ := operandsAreFrozenWhileBusy s t hb he hr ht
  exact ⟨t, ht, by rw [step_inbox ht, hin, List.tail_cons], hb', hcmd, hpar, hopa, hopb, hres, hdim, hmem, hlp⟩

theorem run_succ_of_next {M : Host.Core} {s t : M.State} (h : M.step s = .next t) (k : Nat) :
    M.run (k + 1) s = M.run k t := by
  rw [Host.Core.run, h]

theorem run_one (M : Host.Core) (s : M.State) : M.run 1 s = M.step s := by
  rw [Host.Core.run]
  cases M.step s <;> rfl

/-- An access in the words of O42 is no bus error (R77). -/
theorem nextIsBusError_of_aligned {s : State} {a : Access} {rest : List Event} (hin : s.inbox = .host a :: rest)
    (ha : a = .poll ∨ ∃ off : Offset, off.toNat % 4 = 0 ∧ (a = .read 4 off ∨ ∃ v, a = .write 4 off v)) :
    nextIsBusError s = false := by
  rcases ha with rfl | ⟨off, ho, rfl | ⟨v, rfl⟩⟩
  · simp [nextIsBusError, hin]
  · simp [nextIsBusError, hin, accessDefined, ho]
  · simp [nextIsBusError, hin, accessDefined, ho]

/-- Accesses while a command is pending, then one step: it is the step of a state in which the same command is still pending. -/
theorem run_accesses_while_busy {accesses : List Access} {rest : List Event} {s : State} (hb : s.status.busy = true)
    (hin : s.inbox = accesses.map Event.host ++ rest)
    (hacc : ∀ a ∈ accesses,
      a = .poll ∨ ∃ off : Offset, off.toNat % 4 = 0 ∧ (a = .read 4 off ∨ ∃ v, a = .write 4 off v)) :
    ∃ t, Host.Core.run core (accesses.length + 1) s = step t ∧ t.inbox = rest ∧ t.status.busy = true ∧
      SamePending t s := by
  induction accesses generalizing s with
  | nil => exact ⟨s, run_one core s, hin, hb, .refl s⟩
  | cons a accesses ih =>
    have hd := nextIsBusError_of_aligned hin (hacc a (by simp))
    obtain ⟨u, hu, hbox, hbu, hsu⟩ := step_access_while_busy hb hin hd
    obtain ⟨t, ht, hrest, hbt, hst⟩ := ih hbu hbox fun b hmem => hacc b (List.mem_cons_of_mem a hmem)
    exact ⟨t, (run_succ_of_next hu _).trans ht, hrest, hbt, hst.trans hsu⟩

/-- A completion's result depends on the command word and its operands alone (R138, R191). -/
theorem StepEffect.completes_congr {s t s' t' : State} (h : SamePending s t) (hs : StepEffect s .completes s')
    (ht : StepEffect t .completes t') : SamePending s' t' ∧ s'.status.ecode = t'.status.ecode := by
  obtain ⟨hcmd, hop⟩ := h
  cases hs with
  | runs hd hx =>
    cases ht with
    | runs hd' hx' =>
      obtain rfl : _ = _ := Except.ok.inj (hd.symm.trans (hcmd ▸ hd'))
      obtain ⟨-, -, hc, -⟩ := exec_frame hx
      obtain ⟨-, -, hc', -⟩ := exec_frame hx'
      obtain ⟨hop', hcode⟩ := exec_congr _ (s := { s with inbox := s.inbox.tail })
        (t := { t with inbox := t.inbox.tail }) hop hx hx'
      exact ⟨⟨by rw [hc, hc']; exact hcmd, hop'⟩, hcode⟩
    | illegal hd' => simp [← hcmd, hd] at hd'
  | illegal hd =>
    cases ht with
    | runs hd' hx' => simp [← hcmd, hd] at hd'
    | illegal hd' => exact ⟨⟨hcmd, hop⟩, rfl⟩

/-- The Engine's turn completes a pending command (R191). -/
theorem step_completes {s : State} {rest : List Event} (hb : s.status.busy = true)
    (hin : s.inbox = .engine :: rest) :
    ∃ t, step s = .next t ∧ t.inbox = rest ∧ StepEffect s .completes t := by
  obtain ⟨t, ht⟩ := step_answers (s := s) (by simp [nextIsBusError, hin])
  have he := step_effect ht
  rw [(stepKind_completes_iff s).mpr ⟨by simp [nextIsEngine, hin], hb⟩] at he
  exact ⟨t, ht, by rw [step_inbox ht, hin, List.tail_cons], he⟩

/-- Settles O42: the accesses leave the same command pending, by induction over their list, and its completion reads nothing
else. -/
theorem resultsDoNotDependOnLatency : Obligations.ResultsDoNotDependOnLatency := by
  intro s accesses rest hb hin hacc
  obtain ⟨w, hrun, hbox, hbw, hsame⟩ := run_accesses_while_busy hb hin hacc
  obtain ⟨t, ht, htbox, het⟩ := step_completes hbw hbox
  obtain ⟨u, hu, -, heu⟩ := step_completes (s := { s with inbox := .engine :: rest }) hb rfl
  obtain ⟨⟨hcmd, -, hopa, hopb, hres, hdim, hmem, hlp⟩, hcode⟩ := StepEffect.completes_congr (t := { s with inbox := .engine :: rest }) hsame het heu
  obtain ⟨-, -, c, hst, -⟩ := het.of_completes
  exact ⟨t, u, hrun.trans ht, hu, htbox, hcmd, hopa, hopb, hres, hdim, hmem, hlp, hcode, by simp [hst], by simp [hst]⟩

end Sys2Proof.Machine
end

section
/-! SUPPORT. The Host's reads and writes, offset by offset (20_memory.md R72–R76, R79): what each leaves, that a second access does
nothing more, and what the words of the registers are. -/

namespace Sys2Proof.Machine

section
variable {s : State} {off : Offset} {x : Target}

/-- A read of a target that BUSY = 1 does not block, or of an idle block, only gives the Host the target's value (R75). -/
theorem hostRead_of_target (ha : off.toNat % 4 = 0) (ht : target s.params off = x)
    (h : x.readBlocks = false ∨ s.status.busy = false) :
    hostRead off s = .next { s with reads := s.reads ++ [readTarget s x] } := by
  subst ht
  rcases h with h | h <;> simp [hostRead_eq off s ha, memRead, h]

/-- The same with the number of the value. -/
theorem hostRead_number (ha : off.toNat % 4 = 0) (ht : target s.params off = x)
    (h : x.readBlocks = false ∨ s.status.busy = false) {n : Nat} (hn : (readTarget s x).toNat = n) :
    hostRead off s = .next { s with reads := s.reads ++ [BitVec.ofNat 32 n] } := by
  rw [← hn, BitVec.ofNat_toNat, BitVec.setWidth_eq]
  exact hostRead_of_target ha ht h

theorem hostRead_of_target_blocked (ha : off.toNat % 4 = 0) (ht : target s.params off = x) (hr : x.readBlocks = true)
    (hb : s.status.busy = true) : hostRead off s = .next { blockAccess s with reads := s.reads ++ [0] } := by
  subst ht
  exact hostRead_blocked ha hr hb

/-- A write of a target that BUSY = 1 does not block, or to an idle block, does what the target says (R76). -/
theorem hostWrite_of_target (v : Word) (ha : off.toNat % 4 = 0) (ht : target s.params off = x)
    (h : x.writeBlocks = false ∨ s.status.busy = false) : hostWrite off v s = .next (writeTarget v s x) := by
  subst ht
  rcases h with h | h <;> simp [hostWrite_eq off v s ha, memWrite, h]

theorem hostWrite_of_target_blocked (v : Word) (ha : off.toNat % 4 = 0) (ht : target s.params off = x)
    (hw : x.writeBlocks = true) (hb : s.status.busy = true) : hostWrite off v s = .next (blockAccess s) := by
  subst ht
  exact hostWrite_blocked ha hw hb

/-- A read of a word that holds nothing gives 0 (R73, R74). -/
theorem hostRead_empty (ha : off.toNat % 4 = 0) (ht : target s.params off = .empty) :
    hostRead off s = .next { s with reads := s.reads ++ [0] } :=
  hostRead_of_target ha ht (.inl rfl)

/-- A write of a word that holds nothing is ignored (R73, R74). -/
theorem hostWrite_empty (v : Word) (ha : off.toNat % 4 = 0) (ht : target s.params off = .empty) :
    hostWrite off v s = .next s :=
  hostWrite_of_target v ha ht (.inl rfl)

end

/-- The offsets that hold nothing (R73, R74). -/
theorem target_eq_empty {p : Params} {off : Offset}
    (h : off.toNat = 0x01C ∨ (0x030 ≤ off.toNat ∧ off.toNat < 0x1000) ∨
      (0x1000 ≤ off.toNat ∧ off.toNat < 0x5000 ∧ p.nmax * p.cmax ≤ off.toNat % 0x1000 / 4) ∨ 0x5000 ≤ off.toNat) :
    target p off = .empty := by
  unfold target
  split
  · exact registerTarget_reserved off (by omega)
  split
  · exact if_neg (by unfold windowIndex; omega)
  · rfl

/-- Settles O27: the map names nothing at those offsets. -/
theorem emptyWordsReadZeroAndIgnoreWrites : Obligations.EmptyWordsReadZeroAndIgnoreWrites := by
  intro s off v ha h
  have ht := target_eq_empty h
  exact ⟨hostRead_empty ha ht, hostWrite_empty v ha ht⟩

/-- Settles O26 with the laws of the address map. -/
theorem elementAddressesAreColumnMajor : Obligations.ElementAddressesAreColumnMajor := by
  intro p hp
  refine ⟨fun sl i j hi hj => ⟨rfl, (elemAddr_bounds hp sl hi hj).2, elemAddr_toNat hp sl hi hj,
    target_elemAddr hp sl hi hj⟩, fun off sl i j ha ht => ?_, fun sl q _ => ?_⟩
  · obtain ⟨hi, hj, hoff, -⟩ := elem_of_target hp ha ht
    exact ⟨hi, hj, hoff⟩
  · rw [elemAddr, index_split, wbase]

/-! ### A second access -/

theorem writeTarget_params (v : Word) (s : State) (x : Target) : (writeTarget v s x).params = s.params := by
  cases x <;> rfl

/-- Only an acceptance changes BUSY (R190). -/
theorem writeTarget_busy (v : Word) (s : State) {x : Target} (hx : x ≠ .cmd) :
    (writeTarget v s x).status.busy = s.status.busy := by
  cases x with
  | cmd => exact absurd rfl hx
  | id | ctrl | status | opa | opb | res | dim | elem | empty => rfl

theorem Status.writeOneToClear_twice (t : Status) (v : Word) :
    (t.writeOneToClear v).writeOneToClear v = t.writeOneToClear v := by
  simp [Status.writeOneToClear]

theorem setDim_twice (sl : SlotNo) (d : Dim) (s : State) : setDim sl d (setDim sl d s) = setDim sl d s := by
  simp [setDim]

theorem setElem_twice (sl : SlotNo) (i j : Nat) (r : Residue) (s : State) :
    setElem sl i j r (setElem sl i j r s) = setElem sl i j r s := by
  simp [setElem, Memory.write_write]

/-- A write done twice leaves what a write done once leaves (R79): a command is the exception only because a second one is
blocked. -/
theorem writeTarget_twice (v : Word) (s : State) (x : Target) :
    writeTarget v (writeTarget v s x) x = writeTarget v s x := by
  cases x with
  | status => simp [writeTarget, Status.writeOneToClear_twice]
  | dim sl => exact setDim_twice sl _ s
  | elem sl i j => exact setElem_twice sl i j _ s
  | id | ctrl | cmd | opa | opb | res | empty => rfl

theorem memWrite_twice {off : Offset} (hoff : off ≠ 0x00C) (v : Word) (s : State) :
    memWrite off v (memWrite off v s) = memWrite off v s := by
  rcases memWrite_cases off v s with ⟨hw, hb, e⟩ | ⟨h, e⟩
  · rw [e, memWrite, blockAccess_params, hw, blockAccess_status, Status.blocked_busy, hb]
    rfl
  · have hcmd : target s.params off ≠ .cmd := fun hc => hoff (offset_of_target_cmd _ off hc)
    rw [e, memWrite, writeTarget_params, writeTarget_busy v s hcmd, if_neg (by rcases h with h | h <;> simp [h]),
      writeTarget_twice]

/-- What a read returns does not depend on what the Host has read before. -/
theorem readTarget_reads (s : State) (l : List Word) (x : Target) :
    readTarget { s with reads := l } x = readTarget s x := by
  cases x <;> rfl

/-- Settles O33: the write by its target, the reads because neither the record of reads nor BUSYACC decides what a read does. -/
theorem accessesOtherThanCmdAreIdempotent : Obligations.AccessesOtherThanCmdAreIdempotent := by
  intro s off v ha
  refine ⟨fun hoff t ht => ?_, fun h => ⟨_, hostRead_of_target ha rfl h, ?_⟩,
    fun hr hb => ⟨_, hostRead_blocked ha hr hb, rfl, ?_⟩⟩
  · rw [hostWrite_eq off v s ha] at ht
    obtain rfl := next_inj ht
    rw [hostWrite_eq off v _ ha, memWrite_twice hoff]
  · have again := hostRead_of_target (s := { s with reads := s.reads ++ [readTarget s (target s.params off)] }) ha rfl h
    rwa [readTarget_reads] at again
  · exact hostRead_blocked ha hr hb

/-! ### The registers -/

/-- The word of CTRL as a number (R32). -/
theorem ctrlWord_toNat (c : Ctrl) : c.toWord.toNat = c.pivot.toNat + 2 * c.irqEn.toNat := by
  obtain ⟨pivot, irqEn⟩ := c
  cases pivot <;> cases irqEn <;> rfl

/-- Settles O28: each register's offset by its target, the words of several fields by their numbers. -/
theorem hostReadsReturnTheRegisters : Obligations.HostReadsReturnTheRegisters := by
  intro s hp returns blocked
  refine ⟨?id, ?ctrl, ?status, ?cmd, ?opa, ?opb, fun hb => ?res, fun hb => ?resBlocked, fun sl hb => ?dim,
    fun sl hb => ?dimBlocked, fun sl i j hi hj hb => ?elem, fun sl i j hi hj hb => ?elemBlocked,
    fun off => hostRead_empty⟩
  case id => exact hostRead_number rfl (target_id _) (.inl rfl) (idWord_toNat _ hp)
  case ctrl => exact hostRead_number rfl (target_ctrl _) (.inl rfl) (ctrlWord_toNat _)
  case status => exact hostRead_number rfl (target_status _) (.inl rfl) (statusWord_toNat _)
  case cmd => exact hostRead_of_target rfl (target_cmd _) (.inl rfl)
  case opa => exact hostRead_of_target rfl (target_opa _) (.inl rfl)
  case opb => exact hostRead_of_target rfl (target_opb _) (.inl rfl)
  case res => exact hostRead_of_target rfl (target_res _) (.inr hb)
  case resBlocked => exact hostRead_of_target_blocked rfl (target_res _) rfl hb
  case dim => exact hostRead_number (dimOffset_aligned sl) (target_dimOffset _ sl) (.inr hb) (dimWord_toNat _)
  case dimBlocked => exact hostRead_of_target_blocked (dimOffset_aligned sl) (target_dimOffset _ sl) rfl hb
  all_goals
    have ha := elemOffset_aligned _ hp sl hi hj
    have ht := target_elemOffset _ hp sl hi hj
  case elem => exact hostRead_number ha ht (.inr hb) (BitVec.toNat_setWidth_of_le (by decide))
  case elemBlocked => exact hostRead_of_target_blocked ha ht rfl hb

/-- Settles O29: each register's offset by its target, and what DIM stores by the numbers of its two bytes. -/
theorem hostWritesToRegisters : Obligations.HostWritesToRegisters := by
  intro s v r c blocked
  refine ⟨?ctrl, ?status, ?id, ?res, fun off => hostWrite_empty v,
    fun hb => ⟨?cmd, ?opa, ?opb, fun sl => ?dim, fun hp sl i j hi hj => ?elem⟩,
    fun hb => ⟨?cmdBlocked, ?opaBlocked, ?opbBlocked, fun sl => ?dimBlocked, fun hp sl i j hi hj => ?elemBlocked⟩⟩
  case ctrl => exact hostWrite_of_target v rfl (target_ctrl _) (.inl rfl)
  case status => exact hostWrite_of_target v rfl (target_status _) (.inl rfl)
  case id => exact hostWrite_of_target v rfl (target_id _) (.inl rfl)
  case res => exact hostWrite_of_target v rfl (target_res _) (.inl rfl)
  case cmd => exact hostWrite_of_target v rfl (target_cmd _) (.inr hb)
  case opa => exact hostWrite_of_target v rfl (target_opa _) (.inr hb)
  case opb => exact hostWrite_of_target v rfl (target_opb _) (.inr hb)
  case dim =>
    rw [hostWrite_of_target v (dimOffset_aligned sl) (target_dimOffset _ sl) (.inr hb), writeTarget, dimOfWord_eq]
    rfl
  case cmdBlocked => exact hostWrite_of_target_blocked v rfl (target_cmd _) rfl hb
  case opaBlocked => exact hostWrite_of_target_blocked v rfl (target_opa _) rfl hb
  case opbBlocked => exact hostWrite_of_target_blocked v rfl (target_opb _) rfl hb
  case dimBlocked => exact hostWrite_of_target_blocked v (dimOffset_aligned sl) (target_dimOffset _ sl) rfl hb
  all_goals
    have ha := elemOffset_aligned _ hp sl hi hj
    have ht := target_elemOffset _ hp sl hi hj
  case elem => exact hostWrite_of_target v ha ht (.inr hb)
  case elemBlocked => exact hostWrite_of_target_blocked v ha ht rfl hb

end Sys2Proof.Machine
end

section
/-! SUPPORT. The decoder and the encoder on the fields of a command word (30_encoding.md R101–R103, R105, R107, R108): which
fields decode and to what, which words are illegal, and what a match and a mask say about fields. -/

namespace Sys2Proof

/-- A format-S word is its command when it names no slot, and illegal when it names one (R102, R105, R107). -/
theorem decodeScalar_cases (f : CmdFields) (i : Instr) :
    ((f.sa = 0 ∧ f.sb = 0 ∧ f.sd = 0) ∧ decodeScalar f i = .ok i) ∨
      (¬(f.sa = 0 ∧ f.sb = 0 ∧ f.sd = 0) ∧ decodeScalar f i = .error .scalarSlotField) := by
  unfold decodeScalar
  split
  · next h => exact .inr ⟨by tauto, rfl⟩
  · next h => exact .inl ⟨by tauto, rfl⟩

/-- The fields of a format-S word that decodes are the opcode and zeros. -/
theorem fields_of_decodeScalar {f : CmdFields} {c i : Instr} (hr : f.rsv = 0) (h : decodeScalar f c = .ok i) :
    f = ⟨f.opc, 0, 0, 0, 0⟩ ∧ i = c := by
  obtain ⟨opc, sa, sb, sd, rsv⟩ := f
  rcases decodeScalar_cases ⟨opc, sa, sb, sd, rsv⟩ c with ⟨⟨rfl, rfl, rfl⟩, e⟩ | ⟨-, e⟩
  · exact ⟨congrArg _ hr, Except.ok.inj (h.symm.trans e)⟩
  · cases h.symm.trans e

/-- The decoder reads an instruction back from its fields (R107). -/
theorem decodeFields_fields (i : Instr) : decodeFields i.fields = .ok i := by
  cases i with
  | mred | madd | msub | mmul | minv => rfl
  | matinv | matmul => simp [decodeFields, Instr.fields]

/-- Fields that decode to an instruction are the instruction's own (R102, R103). -/
theorem fields_of_decodeFields {f : CmdFields} {i : Instr} (h : decodeFields f = .ok i) : f = i.fields := by
  have scalar : ∀ c : Instr, f.rsv = 0 → decodeScalar f c = .ok i → ⟨f.opc, 0, 0, 0, 0⟩ = c.fields → f = i.fields :=
    fun c hr hd hc => by
      obtain ⟨hf, rfl⟩ := fields_of_decodeScalar hr hd
      exact hf.trans hc
  unfold decodeFields at h
  split_ifs at h with hr h1 h2 h3 h4 h5 h10 hb h11
  all_goals rw [not_not] at hr
  · exact scalar .mred hr h (by rw [h1]; rfl)
  · exact scalar .madd hr h (by rw [h2]; rfl)
  · exact scalar .msub hr h (by rw [h3]; rfl)
  · exact scalar .mmul hr h (by rw [h4]; rfl)
  · exact scalar .minv hr h (by rw [h5]; rfl)
  · rw [not_not] at hb
    cases h
    simp [Instr.fields, ← h10, ← hb, ← hr]
  · cases h
    simp [Instr.fields, ← h11, ← hr]

theorem decodeFields_eq_ok_iff (f : CmdFields) (i : Instr) : decodeFields f = .ok i ↔ f = i.fields :=
  ⟨fields_of_decodeFields, fun h => h ▸ decodeFields_fields i⟩

theorem fieldsOf_eq_iff (v : Word) (f : CmdFields) : fieldsOf v = f ↔ v = packFields f :=
  ⟨fun h => by rw [← h, packFields_fieldsOf], fun h => by rw [h, fieldsOf_packFields]⟩

theorem decode_eq_ok_iff_fields (v : Word) (i : Instr) : decode v = .ok i ↔ fieldsOf v = i.fields :=
  decodeFields_eq_ok_iff (fieldsOf v) i

/-- The one word of an instruction (R107, R108). -/
theorem decode_eq_ok_iff (v : Word) (i : Instr) : decode v = .ok i ↔ v = encode i :=
  (decode_eq_ok_iff_fields v i).trans (fieldsOf_eq_iff v _)

/-- The legal fields (R105), row by row of the opcode map (R103). -/
theorem CmdFields.legal_iff (f : CmdFields) :
    f.legal = true ↔ f.rsv = 0 ∧
      ((f.opc = 0x01 ∨ f.opc = 0x02 ∨ f.opc = 0x03 ∨ f.opc = 0x04 ∨ f.opc = 0x05) ∧ f.sa = 0 ∧ f.sb = 0 ∧ f.sd = 0 ∨
        f.opc = 0x10 ∧ f.sb = 0 ∨ f.opc = 0x11) := by
  simp only [legal, rsvClear, opcAssigned, scalarNamesNoSlot, matinvHasNoSb, isScalar, Bool.and_eq_true,
    Bool.or_eq_true, Bool.not_eq_true', Bool.or_eq_false_iff, beq_iff_eq, beq_eq_false_iff_ne]
  grind

/-- R105, which does not speak of the decoder, makes legal the fields of the instructions and no others. -/
theorem CmdFields.legal_iff_eq_fields (f : CmdFields) : f.legal = true ↔ ∃ i : Instr, f = i.fields := by
  constructor
  · obtain ⟨opc, sa, sb, sd, rsv⟩ := f
    rw [legal_iff]
    rintro ⟨rfl, ⟨rfl | rfl | rfl | rfl | rfl, rfl, rfl, rfl⟩ | ⟨rfl, rfl⟩ | rfl⟩
    · exact ⟨.mred, rfl⟩
    · exact ⟨.madd, rfl⟩
    · exact ⟨.msub, rfl⟩
    · exact ⟨.mmul, rfl⟩
    · exact ⟨.minv, rfl⟩
    · exact ⟨.matinv (slotOf sd) (slotOf sa), by simp [Instr.fields]⟩
    · exact ⟨.matmul (slotOf sd) (slotOf sa) (slotOf sb), by simp [Instr.fields]⟩
  · rintro ⟨i, rfl⟩
    cases i <;> simp [legal_iff, Instr.fields]

/-- Settles O10: a word decodes to an instruction when its fields are the instruction's, and fields and words correspond. -/
theorem decodeIsTheInverseOfEncode : Obligations.DecodeIsTheInverseOfEncode :=
  fun v i => ⟨decode_eq_ok_iff v i, (CmdFields.legal_iff_eq_fields _).mpr ⟨i, rfl⟩⟩

/-- The decoder refuses a word exactly when R105 makes it illegal. -/
theorem decode_error_iff (v : Word) : (∃ e, decode v = .error e) ↔ ¬(fieldsOf v).legal = true := by
  simp only [CmdFields.legal_iff_eq_fields, ← decode_eq_ok_iff_fields]
  cases decode v <;> simp

/-- The legal words as numbers. -/
theorem legal_fieldsOf_iff (v : Word) :
    (fieldsOf v).legal = true ↔ v.toNat / 2 ^ 14 = 0 ∧
      ((1 ≤ v.toNat % 256 ∧ v.toNat % 256 ≤ 5) ∧
          v.toNat / 2 ^ 8 % 4 = 0 ∧ v.toNat / 2 ^ 10 % 4 = 0 ∧ v.toNat / 2 ^ 12 % 4 = 0 ∨
        v.toNat % 256 = 0x10 ∧ v.toNat / 2 ^ 10 % 4 = 0 ∨ v.toNat % 256 = 0x11) := by
  obtain ⟨hopc, hsa, hsb, hsd, hrsv⟩ := fieldsOf_toNat v
  simp only [CmdFields.legal_iff, BitVec.ofNat_eq_ofNat, ← BitVec.toNat_inj, BitVec.toNat_ofNat, hopc, hsa, hsb, hsd, hrsv]
  omega

/-- A masked word field by field: both the mask and the match are words with fields of their own (R103). -/
theorem and_eq_iff_fields (v m c : Word) :
    v &&& m = c ↔ (fieldsOf v).opc &&& (fieldsOf m).opc = (fieldsOf c).opc ∧
      (fieldsOf v).sa &&& (fieldsOf m).sa = (fieldsOf c).sa ∧ (fieldsOf v).sb &&& (fieldsOf m).sb = (fieldsOf c).sb ∧
      (fieldsOf v).sd &&& (fieldsOf m).sd = (fieldsOf c).sd ∧ (fieldsOf v).rsv &&& (fieldsOf m).rsv = (fieldsOf c).rsv := by
  have h : v &&& m = c ↔ fieldsOf (v &&& m) = fieldsOf c := by rw [fieldsOf_eq_iff, packFields_fieldsOf]
  rw [h]
  simp only [fieldsOf, BitVec.extractLsb'_and, CmdFields.mk.injEq]

/-- The words of MATINV by their fields (R102, R103): SB and RSV are 0, SD and SA are free. -/
theorem decode_matinv_iff (v : Word) :
    (∃ sd sa, decode v = .ok (.matinv sd sa)) ↔
      (fieldsOf v).opc = 0x10 ∧ (fieldsOf v).sb = 0 ∧ (fieldsOf v).rsv = 0 := by
  simp only [decode_eq_ok_iff_fields]
  obtain ⟨opc, sa, sb, sd, rsv⟩ := fieldsOf v
  constructor
  · rintro ⟨_, _, h⟩
    cases h
    exact ⟨rfl, rfl, rfl⟩
  · rintro ⟨rfl, rfl, rfl⟩
    exact ⟨slotOf sd, slotOf sa, by simp [Instr.fields]⟩

/-- The words of MATMUL by their fields (R102, R103): RSV is 0, the three slots are free. -/
theorem decode_matmul_iff (v : Word) :
    (∃ sd sa sb, decode v = .ok (.matmul sd sa sb)) ↔ (fieldsOf v).opc = 0x11 ∧ (fieldsOf v).rsv = 0 := by
  simp only [decode_eq_ok_iff_fields]
  obtain ⟨opc, sa, sb, sd, rsv⟩ := fieldsOf v
  constructor
  · rintro ⟨_, _, _, h⟩
    cases h
    exact ⟨rfl, rfl⟩
  · rintro ⟨rfl, rfl⟩
    exact ⟨slotOf sd, slotOf sa, slotOf sb, by simp [Instr.fields]⟩

/-- Settles O12: a full mask leaves the one word of a scalar command, and the masks of the matrix commands clear the slot fields
they use. -/
theorem decodeFollowsTheOpcodeMap : Obligations.DecodeFollowsTheOpcodeMap := by
  intro v
  have full : v &&& 0xFFFFFFFF#32 = v := BitVec.and_allOnes
  rw [full]
  refine ⟨decode_eq_ok_iff v .mred, decode_eq_ok_iff v .madd, decode_eq_ok_iff v .msub, decode_eq_ok_iff v .mmul,
    decode_eq_ok_iff v .minv, ?matinv, ?matmul⟩
  case matinv =>
    have mask : fieldsOf 0xFFFFCCFF#32 = ⟨.allOnes 8, 0, .allOnes 2, 0, .allOnes 18⟩ := by decide
    have row : fieldsOf 0x00000010#32 = ⟨0x10, 0, 0, 0, 0⟩ := by decide
    simp only [decode_matinv_iff, and_eq_iff_fields, mask, row, BitVec.and_allOnes, BitVec.ofNat_eq_ofNat, BitVec.and_zero,
      true_and]
  case matmul =>
    have mask : fieldsOf 0xFFFFC0FF#32 = ⟨.allOnes 8, 0, 0, 0, .allOnes 18⟩ := by decide
    have row : fieldsOf 0x00000011#32 = ⟨0x11, 0, 0, 0, 0⟩ := by decide
    simp only [decode_matmul_iff, and_eq_iff_fields, mask, row, BitVec.and_allOnes, BitVec.ofNat_eq_ofNat, BitVec.and_zero,
      true_and]

/-- Settles O13: the words are fixed, and the decoder computes. -/
theorem writtenOutWordsDecode : Obligations.WrittenOutWordsDecode := by
  unfold Obligations.WrittenOutWordsDecode
  decide

end Sys2Proof
end

section
/-! SUPPORT. What the Engine does with an illegal word (30_encoding.md R105; 60_exceptions.md R190, R191). -/

namespace Sys2Proof.Machine

/-- An illegal word's turn: nothing but the completion with ILLEGAL (R105, R191). -/
theorem engineTurn_illegal {s : State} {e : IllegalWord} (hb : s.status.busy = true) (he : decode s.cmd = .error e) :
    engineTurn s = .next (complete .illegal s) := by
  simp only [engineTurn, completion, hb, he, if_true]
  rfl

/-- Settles O11: R105's conditions field by field as numbers, then the acceptance (R190) and the completion (R191). -/
theorem illegalWordsCompleteWithIllegal : Obligations.IllegalWordsCompleteWithIllegal := by
  refine ⟨fun v => ?_, fun v e s he hb => ?_⟩
  · rw [decode_error_iff, legal_fieldsOf_iff]
    omega
  · refine ⟨accept v s, hostWrite_of_target v rfl (target_cmd _) (.inr hb), rfl, rfl, ?_⟩
    rw [engineStep_eq, engineTurn_illegal (s := accept v s) rfl he, complete, accept_status, completed_not_ok _ (by decide)]
    rfl

end Sys2Proof.Machine
end

section
/-! SUPPORT. A WAIT and the number of its polls (30_encoding.md R110; 70_reset_and_hazards.md R230; 93_implementation_defined.md
I16): a repeated poll changes `busyPolls` alone, and nothing that comes after reads it. -/

namespace Sys2Proof.Machine

/-- A poll with BUSY = 1 is repeated: only the schedule and the record of the polls change (R110). -/
theorem step_poll_busy {s : State} {rest : List Event} (hin : s.inbox = .host .poll :: rest) (hb : s.status.busy = true) :
    step s = .next { s with inbox := rest, busyPolls := s.busyPolls ++ [(s.reads.length, s.status.toWord)] } := by
  rw [step, hin]
  rcases waitPoll_cases { s with inbox := rest } with ⟨-, h⟩ | ⟨hidle, -⟩
  · exact congrArg _ h
  · simp [hb] at hidle

/-- A poll with BUSY = 0 ends the WAIT, and the Host has read STATUS (R110). -/
theorem step_poll_idle {s : State} {rest : List Event} (hin : s.inbox = .host .poll :: rest) (hb : s.status.busy = false) :
    step s = .next { s with inbox := rest, reads := s.reads ++ [s.status.toWord] } := by
  rw [step, hin]
  rcases waitPoll_cases { s with inbox := rest } with ⟨hbusy, -⟩ | ⟨-, h⟩
  · simp [hb] at hbusy
  · exact congrArg _ h

/-- No command reads the record of the polls (R138, R191). -/
theorem exec_with_busyPolls {i : Instr} {s t : State} (h : exec i s = .next t) (p : List (Nat × Word)) :
    exec i { s with busyPolls := p } = .next { t with busyPolls := p } := by
  obtain ⟨u, hu⟩ := exec_answers i { s with busyPolls := p }
  obtain ⟨⟨hpar, hopa, hopb, hres, hdim, hmem, hlp⟩, hcode⟩ :=
    exec_congr i (s := { s with busyPolls := p }) (t := s) ⟨rfl, rfl, rfl, rfl, rfl, rfl, rfl⟩ hu h
  obtain ⟨-, hctrl, hcmd, -, -, -, hbox, hreads, -, c, hst⟩ := exec_frame h
  obtain ⟨-, hctrl', hcmd', -, -, -, hbox', hreads', hpolls', c', hst'⟩ := exec_frame hu
  have hstatus : u.status = t.status := by
    rw [hst, hst'] at hcode
    obtain rfl : c' = c := hcode
    rw [hst, hst']
  rw [hu]
  congr 1
  exact State.ext hpar (hctrl'.trans hctrl.symm) hstatus (hcmd'.trans hcmd.symm) hopa hopb hres hdim hmem hlp
    (hbox'.trans hbox.symm) (hreads'.trans hreads.symm) hpolls'

/-- Nor does a completion, of a legal or of an illegal word; it takes BUSY down and leaves the schedule and the reads (R191). -/
theorem engineTurn_busy {s : State} (hb : s.status.busy = true) :
    ∃ t : State, t.status.busy = false ∧ t.inbox = s.inbox ∧ t.reads = s.reads ∧
      ∀ p, engineTurn { s with busyPolls := p } = .next { t with busyPolls := p } := by
  cases hd : decode s.cmd with
  | ok i =>
    obtain ⟨t, ht⟩ := exec_answers i s
    obtain ⟨-, -, -, -, -, -, hbox, hreads, -, c, hst⟩ := exec_frame ht
    refine ⟨t, by simp [hst], hbox, hreads, fun p => ?_⟩
    rw [← exec_with_busyPolls ht p]
    simp only [engineTurn, completion, hb, hd, if_true]
  | error e =>
    exact ⟨complete .illegal s, rfl, rfl, rfl, fun p => engineTurn_illegal (s := { s with busyPolls := p }) hb hd⟩

/-- A run of the machine goes on from the state that its first step answers. -/
theorem run_core_succ {s t : State} (h : step s = .next t) (k : Nat) :
    Host.Core.run core (k + 1) s = Host.Core.run core k t :=
  run_succ_of_next (M := core) (s := s) (t := t) h k

/-- The end of a WAIT: the completion, then the poll that sees it. -/
theorem run_wait_end {s : State} (hb : s.status.busy = true) (rest : List Event) :
    ∃ t : State, t.inbox = rest ∧ t.status.busy = false ∧ t.reads = s.reads ++ [t.status.toWord] ∧
      ∀ p, Host.Core.run core 2 { s with inbox := HostProgram.wait 0 ++ rest, busyPolls := p } =
        .next { t with busyPolls := p } := by
  obtain ⟨t, hbt, hbox, hreads, hturn⟩ := engineTurn_busy (s := { s with inbox := .host .poll :: rest }) hb
  refine ⟨{ t with inbox := rest, reads := t.reads ++ [t.status.toWord] }, rfl, hbt, by rw [hreads], fun p => ?_⟩
  have hcompletes : step { s with inbox := HostProgram.wait 0 ++ rest, busyPolls := p } = .next { t with busyPolls := p } :=
    hturn p
  rw [run_core_succ hcompletes, run_core_succ (step_poll_idle (s := { t with busyPolls := p }) hbox hbt)]
  rfl

/-- The repeated polls of a WAIT, by induction on their number: only their record changes. -/
theorem run_wait_polls (n k : Nat) {s : State} (hb : s.status.busy = true) (rest : List Event) :
    ∃ p, Host.Core.run core (n + k) { s with inbox := HostProgram.wait n ++ rest } =
      Host.Core.run core k { s with inbox := HostProgram.wait 0 ++ rest, busyPolls := p } := by
  induction n generalizing s with
  | zero => exact ⟨s.busyPolls, by rw [Nat.zero_add]⟩
  | succ n ih =>
    obtain ⟨p, hp⟩ := ih (s := { s with busyPolls := s.busyPolls ++ [(s.reads.length, s.status.toWord)] }) hb
    refine ⟨p, ?_⟩
    rw [← hp, Nat.succ_add]
    exact run_core_succ (step_poll_busy (s := { s with inbox := HostProgram.wait (n + 1) ++ rest }) rfl hb) _

/-- Settles O49: all repeated polls leave the same state but for their record, which neither the end of the WAIT nor the
result reads. -/
theorem waitPollsDoNotShowInTheResult : Obligations.WaitPollsDoNotShowInTheResult := by
  intro s
  refine ⟨step_poll_busy (s := { s with inbox := .host .poll :: s.inbox }) rfl,
    step_poll_idle (s := { s with inbox := .host .poll :: s.inbox }) rfl, fun n rest hb hin => ?_⟩
  obtain ⟨t, hbox, hbt, hreads, hend⟩ := run_wait_end hb rest
  obtain ⟨p, hp⟩ := run_wait_polls n 2 hb rest
  rw [← hin] at hp
  exact ⟨{ t with busyPolls := p }, { t with busyPolls := s.busyPolls }, hp.trans (hend p), hend s.busyPolls, rfl, hbox,
    hbox, hbt, hreads⟩

end Sys2Proof.Machine
end

section
/-! SUPPORT. The residue primitives as exact integer arithmetic mod 29, and the inverse table as the inverses of that arithmetic
(40_modular_arithmetic.md R130–R132). -/

namespace Sys2Proof.Machine

/-- Which residue mod29 answers: the one with the same image in Z/29Z. -/
theorem eq_mod29_iff_cast (r : Residue) (a : Int) : r = mod29 a ↔ ((r.val : ℕ) : ZMod 29) = (a : ZMod 29) := by
  rw [← cast_residue_inj, cast_mod29]

/-- Which residue mod29 answers: the one that differs from a by a multiple of 29 (R11). -/
theorem eq_mod29_iff_dvd (r : Residue) (a : Int) : r = mod29 a ↔ (29 : Int) ∣ a - r.val := by
  have hr := r.isLt
  have ha := mod29_val a
  rw [Fin.ext_iff]
  omega

theorem val_of_eq_mod29 {r : Residue} {a : Int} (h : r = mod29 a) : (r.val : Int) = a % 29 := by
  rw [h, mod29_val]

theorem mod29_eq_mod29_iff (a b : Int) : mod29 a = mod29 b ↔ a % 29 = b % 29 := by
  rw [Fin.ext_iff, ← Int.ofNat_inj, mod29_val, mod29_val]

theorem mod29_eq_zero_iff (a : Int) : mod29 a = 0 ↔ a % 29 = 0 := mod29_eq_mod29_iff a 0

/-- The truncating remainder of a number that is not negative (R11). -/
theorem trem29_of_nonneg {a : Int} (h : 0 ≤ a) : trem29 a = a % 29 := Int.tmod_eq_emod_of_nonneg h

/-- The truncating remainder of a negative number that is no multiple of 29 (R11). -/
theorem trem29_of_neg {a : Int} (h : a < 0) (h0 : trem29 a ≠ 0) : trem29 a = a % 29 - 29 := by
  have hndvd : ¬ (29 : Int) ∣ a := fun hd => h0 (Int.tmod_eq_zero_of_dvd hd)
  rw [trem29, Int.tmod_eq_emod, if_neg (by omega)]
  rfl

/-- Settles O1 from the value of mod29: floor modulo, of which the truncating remainder falls 29 short below 0. -/
theorem normalizeIsTheFloorResidue : Obligations.NormalizeIsTheFloorResidue := by
  intro a
  have hval : ((normalize29 a).val : Int) = a % 29 := mod29_val a
  refine ⟨by omega, by omega, (eq_mod29_iff_dvd _ a).mp rfl, fun r => (eq_mod29_iff_dvd r a).mpr, fun hneg h0 => ?_,
    fun hpos => ?_, by decide, by decide, by decide⟩
  · rw [hval, trem29_of_neg hneg h0]
    omega
  · rw [hval, trem29_of_nonneg hpos]

theorem add29_normalize29 (a b : Int) : add29 (normalize29 a) (normalize29 b) = mod29 (a + b) := by
  simp [eq_mod29_iff_cast, normalize29]

theorem sub29_normalize29 (a b : Int) : sub29 (normalize29 a) (normalize29 b) = mod29 (a - b) := by
  simp [eq_mod29_iff_cast, normalize29]

theorem mul29_normalize29 (a b : Int) : mul29 (normalize29 a) (normalize29 b) = mod29 (a * b) := by
  simp [eq_mod29_iff_cast, normalize29]

/-- Settles O3: each operation is mod29 of exact integers, and each factor of a product is at most 28. -/
theorem residueOperationsAreExact : Obligations.ResidueOperationsAreExact := by
  intro x y
  have hprod : x.val * y.val ≤ 28 * 28 := Nat.mul_le_mul (by omega) (by omega)
  exact ⟨mod29_val _, mod29_val _, mod29_val _, hprod⟩

theorem mul29_comm (x y : Residue) : mul29 x y = mul29 y x := by
  rw [mul29, mul29, mul_comm]

theorem mul29_eq_one_iff (x y : Residue) : mul29 x y = 1 ↔ x.val * y.val % 29 = 1 := by
  have hval : ((mul29 x y).val : Int) = ((x.val * y.val : ℕ) : Int) % 29 := mod29_val _
  rw [Fin.ext_iff, Fin.val_one]
  omega

/-- A number below 2^31 in a 32-bit word is that number, read as a signed integer. -/
theorem sint_ofNat {n : ℕ} (h : n < 2 ^ 31) : sint (BitVec.ofNat 32 n) = n := by
  have hval : (BitVec.ofNat 32 n).toNat = n := by
    rw [BitVec.toNat_ofNat, Nat.mod_eq_of_lt (by omega)]
  rw [sint, BitVec.toInt_eq_toNat_of_lt (by omega), hval]

/-- A residue has at most one inverse: mul29 is the product of the ring Z/29Z. -/
theorem mul29_inverse_unique {r x y : Residue} (hx : mul29 r x = 1) (hy : mul29 r y = 1) : x = y := by
  have cast : ∀ z, mul29 r z = 1 → ((r.val : ℕ) : ZMod 29) * (z.val : ℕ) = 1 := fun z hz => by
    rw [← cast_mul29, hz]
    rfl
  rw [← cast_residue_inj]
  exact left_inv_eq_right_inv ((mul_comm _ _).trans (cast x hx)) (cast y hy)

/-- The table's entry of r is its inverse under mul29, and there is an entry when there is an inverse (R131). -/
theorem inv29_eq_some_iff (r x : Residue) : inv29 r = some x ↔ mul29 r x = 1 := by
  refine ⟨mul29_of_inv29 r x, fun hx => ?_⟩
  rcases inv29_spec r with ⟨rfl, -⟩ | ⟨-, y, hy, hry⟩
  · rw [mul29_eq_one_iff] at hx
    simp at hx
  · rw [hy, mul29_inverse_unique hry hx]

/-- Only 1 and 28 are their own inverses: a square root of 1 in a field is 1 or −1. -/
theorem mul29_self_eq_one_iff : ∀ r : Residue, mul29 r r = 1 ↔ r = 1 ∨ r = 28 := by decide

/-- Settles O2: an entry is the inverse under mul29, so it is unique and the table is an involution; the 28 entries are
computed. -/
theorem inverseTableHoldsTheInverses : Obligations.InverseTableHoldsTheInverses := by
  refine ⟨fun r hr => ?_, rfl, fun r x h => ?_, fun r => ?_, by decide⟩
  · rcases inv29_spec r with ⟨h0, -⟩ | ⟨-, x, hx, hrx⟩
    · exact absurd h0 hr
    · exact ⟨x, hx, (mul29_eq_one_iff r x).mp hrx, fun y hy =>
        mul29_inverse_unique ((mul29_eq_one_iff r y).mpr hy) hrx⟩
  · rw [inv29_eq_some_iff] at h ⊢
    rw [mul29_comm, h]
  · rw [inv29_eq_some_iff, mul29_self_eq_one_iff]

end Sys2Proof.Machine
end

section
/-! SUPPORT. The scalar commands (40_modular_arithmetic.md R133–R138): the next state of each, and what RES and ECODE are as
functions of the operands. -/

namespace Sys2Proof.Machine

/-- The end of a scalar command that succeeds (R133–R137, R191). -/
theorem completeScalar_ok (r : Residue) (s : State) :
    completeScalar r .ok s = .next { s with
      res := r
      status := { s.status with busy := false, done := true, ecode := .ok } } := by
  rw [completeScalar_eq, completed_ok]

/-- Settles O4: MRED's one word, and the end of a command that succeeds. -/
theorem mredReducesOpa : Obligations.MredReducesOpa :=
  ⟨fun v => decode_eq_ok_iff v .mred, fun s => ⟨_, val_of_eq_mod29 rfl, rfl, completeScalar_ok _ s⟩⟩

/-- Settles O5: the sum of the residues is the residue of the sum. -/
theorem maddAddsModulo29 : Obligations.MaddAddsModulo29 :=
  ⟨fun v => decode_eq_ok_iff v .madd, fun s => ⟨_, val_of_eq_mod29 (add29_normalize29 _ _), rfl, completeScalar_ok _ s⟩⟩

/-- Settles O6: the difference of the residues is the residue of the difference. -/
theorem msubSubtractsModulo29 : Obligations.MsubSubtractsModulo29 :=
  ⟨fun v => decode_eq_ok_iff v .msub, fun s => ⟨_, val_of_eq_mod29 (sub29_normalize29 _ _), rfl, completeScalar_ok _ s⟩⟩

/-- Settles O7: the product of the residues is the residue of the product. -/
theorem mmulMultipliesModulo29 : Obligations.MmulMultipliesModulo29 :=
  ⟨fun v => decode_eq_ok_iff v .mmul, fun s => ⟨_, val_of_eq_mod29 (mul29_normalize29 _ _), rfl, completeScalar_ok _ s⟩⟩

theorem operandA_eq_zero_iff (s : State) : operandA s = 0 ↔ s.opa.toInt % 29 = 0 := mod29_eq_zero_iff _

/-- An inverse of a's residue is an inverse of a mod 29. -/
theorem mul_emod_of_mul29_normalize29 {a : Int} {x : Residue} (h : mul29 (normalize29 a) x = 1) :
    a * x.val % 29 = 1 := by
  have hx : normalize29 (x.val : Int) = x := mod29_of_residue x
  rw [← hx, mul29_normalize29] at h
  rw [← mod29_val, h]
  rfl

/-- Settles O8 by the two cases of MINV. -/
theorem minvLooksUpTheInverse : Obligations.MinvLooksUpTheInverse := by
  refine ⟨fun v => decode_eq_ok_iff v .minv, fun s => ?_⟩
  rw [Ne, ← operandA_eq_zero_iff]
  rcases execMinv_cases s with ⟨h0, hexec⟩ | ⟨h0, x, hx, hexec⟩
  · refine ⟨fun _ => ?_, fun h => absurd h0 h⟩
    rw [exec, hexec, completeScalar_eq, completed_not_ok _ (by decide)]
  · refine ⟨fun h => absurd h h0, fun _ => ⟨x, hx, ?_, ?_, hexec.trans (completeScalar_ok x s)⟩⟩
    · exact mul_emod_of_mul29_normalize29 (mul29_of_inv29 _ x hx)
    · rintro rfl
      simp [inv29_eq_some_iff, mul29_eq_one_iff] at hx

/-- RES after command i on the operands a and b, in a state that is s otherwise. -/
def resOf (s : State) (i : Instr) (a b : Word) : Option Residue :=
  (nextState (exec i { s with opa := a, opb := b })).map (·.res)

/-- ECODE after command i on the operands a and b, in a state that is s otherwise. -/
def codeOf (s : State) (i : Instr) (a b : Word) : Option CompletionCode :=
  (nextState (exec i { s with opa := a, opb := b })).map (·.status.ecode)

/-- What a scalar command writes depends on the residues p and q of its operands, and on nothing else (R138); only MINV of 0
fails. -/
theorem scalar_end_of_residues {i : Instr} (hi : i ∈ [Instr.mred, .madd, .msub, .mmul, .minv]) (p q : Residue) :
    ∃ r c, (c ≠ .ok → i = .minv ∧ p = 0) ∧
      ∀ s, operandA s = p → operandB s = q → exec i s = completeScalar r c s := by
  simp only [List.mem_cons, List.not_mem_nil, or_false] at hi
  rcases hi with rfl | rfl | rfl | rfl | rfl
  · exact ⟨p, .ok, by simp, by rintro s rfl rfl; rfl⟩
  · exact ⟨add29 p q, .ok, by simp, by rintro s rfl rfl; rfl⟩
  · exact ⟨sub29 p q, .ok, by simp, by rintro s rfl rfl; rfl⟩
  · exact ⟨mul29 p q, .ok, by simp, by rintro s rfl rfl; rfl⟩
  · rcases inv29_spec p with ⟨hp, hnone⟩ | ⟨-, x, hx, -⟩
    · refine ⟨0, .noinv, fun _ => ⟨rfl, hp⟩, fun s hA _ => ?_⟩
      rw [exec, execMinv, hA, hnone]
    · refine ⟨x, .ok, by simp, fun s hA _ => ?_⟩
      rw [exec, execMinv, hA, hx]

/-- The operands' residues decide RES and ECODE (R138). -/
theorem scalar_congr (s : State) {i : Instr} (hi : i ∈ [Instr.mred, .madd, .msub, .mmul, .minv]) {a a' b b' : Word}
    (ha : sint a % 29 = sint a' % 29) (hb : sint b % 29 = sint b' % 29) :
    resOf s i a b = resOf s i a' b' ∧ codeOf s i a b = codeOf s i a' b' ∧
      (codeOf s i a b ≠ some .ok → i = .minv ∧ sint a % 29 = 0) := by
  obtain ⟨r, c, hfail, hend⟩ := scalar_end_of_residues hi (normalize29 (sint a)) (normalize29 (sint b))
  have h := hend { s with opa := a, opb := b } rfl rfl
  have h' := hend { s with opa := a', opb := b' } ((mod29_eq_mod29_iff _ _).mpr ha.symm)
    ((mod29_eq_mod29_iff _ _).mpr hb.symm)
  simp only [resOf, codeOf, h, h']
  refine ⟨rfl, rfl, fun hc => ?_⟩
  obtain ⟨hminv, h0⟩ := hfail fun hok => hc (congrArg some hok)
  exact ⟨hminv, (mod29_eq_zero_iff _).mp h0⟩

section
variable (s : State) (a b : Word)

theorem resOf_mred : resOf s .mred a b = some (mod29 (sint a)) := rfl

theorem resOf_madd : resOf s .madd a b = some (mod29 (sint a + sint b)) := congrArg some (add29_normalize29 _ _)

theorem resOf_msub : resOf s .msub a b = some (mod29 (sint a - sint b)) := congrArg some (sub29_normalize29 _ _)

theorem resOf_mmul : resOf s .mmul a b = some (mod29 (sint a * sint b)) := congrArg some (mul29_normalize29 _ _)

end

/-- When MINV ends with OK, RES is the inverse of OPA's residue (R137). -/
theorem mul29_of_resOf_minv {s : State} {a b : Word} {x : Residue} (hres : resOf s .minv a b = some x)
    (hcode : codeOf s .minv a b = some .ok) : mul29 (normalize29 (sint a)) x = 1 := by
  rw [resOf, exec] at hres
  rw [codeOf, exec] at hcode
  rcases execMinv_cases { s with opa := a, opb := b } with ⟨-, hexec⟩ | ⟨-, y, hy, hexec⟩ <;> rw [hexec] at hres hcode
  · cases hcode
  · cases hres
    exact mul29_of_inv29 _ _ hy

section
variable (s : State) (a b c : Word)

theorem resOf_madd_comm : resOf s .madd a b = resOf s .madd b a := by
  rw [resOf_madd, resOf_madd, add_comm]

theorem resOf_mmul_comm : resOf s .mmul a b = resOf s .mmul b a := by
  rw [resOf_mmul, resOf_mmul, mul_comm]

theorem resOf_madd_assoc {x y : Residue} (hx : resOf s .madd a b = some x) (hy : resOf s .madd b c = some y) :
    resOf s .madd (zext32 x) c = resOf s .madd a (zext32 y) := by
  rw [resOf_madd] at hx hy
  cases hx
  cases hy
  rw [resOf_madd, resOf_madd, sint_zext32, sint_zext32]
  simp [eq_mod29_iff_cast, add_assoc]

theorem resOf_mmul_assoc {x y : Residue} (hx : resOf s .mmul a b = some x) (hy : resOf s .mmul b c = some y) :
    resOf s .mmul (zext32 x) c = resOf s .mmul a (zext32 y) := by
  rw [resOf_mmul] at hx hy
  cases hx
  cases hy
  rw [resOf_mmul, resOf_mmul, sint_zext32, sint_zext32]
  simp [eq_mod29_iff_cast, mul_assoc]

theorem resOf_mmul_madd_distrib {x y z : Residue} (hx : resOf s .madd b c = some x) (hy : resOf s .mmul a b = some y)
    (hz : resOf s .mmul a c = some z) :
    resOf s .mmul a (zext32 x) = resOf s .madd (zext32 y) (zext32 z) := by
  rw [resOf_madd] at hx
  rw [resOf_mmul] at hy hz
  cases hx
  cases hy
  cases hz
  rw [resOf_mmul, resOf_madd, sint_zext32, sint_zext32, sint_zext32]
  simp [eq_mod29_iff_cast, mul_add]

/-- MSUB is MADD of the negated residue; 29 is 0 in Z/29Z. -/
theorem resOf_msub_eq_madd_neg :
    resOf s .msub a b = resOf s .madd a (BitVec.ofNat 32 (29 - (normalize29 (sint b)).val)) := by
  have hneg : sint (BitVec.ofNat 32 (29 - (normalize29 (sint b)).val)) = 29 - ((normalize29 (sint b)).val : Int) := by
    rw [sint_ofNat (by omega)]
    omega
  have h29 : (29 : ZMod 29) = 0 := rfl
  rw [resOf_msub, resOf_madd, hneg]
  simp [eq_mod29_iff_cast, normalize29, h29, sub_eq_add_neg]

theorem resOf_msub_eq_mred (hb : normalize29 (sint b) = 0) : resOf s .msub a b = resOf s .mred a b := by
  have hdvd : sint b % 29 = 0 := (mod29_eq_zero_iff _).mp hb
  rw [resOf_msub, resOf_mred, Option.some_inj, mod29_eq_mod29_iff]
  omega

theorem resOf_mmul_minv {x : Residue} (hres : resOf s .minv a b = some x) (hcode : codeOf s .minv a b = some .ok) :
    resOf s .mmul a (zext32 x) = some 1 := by
  have hinv := mul29_of_resOf_minv hres hcode
  rw [resOf_mmul, ← mul29_normalize29, normalize29_sint_zext32, hinv]

end

/-- Settles O9: RES of each command is mod29 of an exact integer, so the laws are those of the integers. -/
theorem scalarCommandsObeyTheRingLaws : Obligations.ScalarCommandsObeyTheRingLaws := fun s =>
  ⟨fun _ hi _ _ _ _ => scalar_congr s hi, fun a b => ⟨resOf_madd_comm s a b, resOf_mmul_comm s a b⟩,
    fun a b c _ _ => resOf_madd_assoc s a b c, fun a b c _ _ => resOf_mmul_assoc s a b c,
    fun a b c _ _ _ => resOf_mmul_madd_distrib s a b c, fun a b _ => resOf_msub_eq_madd_neg s a b, resOf_msub_eq_mred s,
    fun a b _ => resOf_mmul_minv s a b⟩

end Sys2Proof.Machine
end

section
/-! SUPPORT. MATINV as a command (41_matrix_inverter.md R151–R162): what each of its ends leaves, and which end a square source
comes to, by whether the inverter finds a pivot in every column. The statements about MATINV are assembled from these. -/

namespace Sys2Proof.Machine

section
variable {s t : State} {sd sa : SlotNo}

/-- The end of a matrix command that fails with the code c (R48, R159). -/
structure FailsWith (c : CompletionCode) (sd : SlotNo) (s t : State) : Prop where
  sentinel : sentinelIn t sd
  frame : slotFrame sd s t
  status : t.status = { s.status with busy := false, done := true, err := true, ecode := c }

/-- The end of MATINV with OK (R158): the source is invertible over Z/29Z, and SD holds its inverse. -/
structure InvertsInto (sd sa : SlotNo) (s t : State) : Prop where
  det_ne_zero : (squareValue s sa (rows s sa)).det ≠ 0
  rows_eq : rows t sd = rows s sa
  cols_eq : cols t sd = rows s sa
  value_eq : squareValue t sd (rows s sa) = (squareValue s sa (rows s sa))⁻¹
  padding : ∀ i j, i < s.params.nmax → j < s.params.cmax → ¬(i < rows s sa ∧ j < rows s sa) → elemByte t sd i j = 0
  frame : slotFrame sd s t
  status : t.status = { s.status with busy := false, done := true, ecode := .ok }

theorem FailsWith.ecode {c : CompletionCode} (h : FailsWith c sd s t) : t.status.ecode = c := by rw [h.status]

theorem InvertsInto.ecode (h : InvertsInto sd sa s t) : t.status.ecode = .ok := by rw [h.status]

theorem failsWith_setSentinel (s : State) (sd : SlotNo) {c : CompletionCode} (hc : c ≠ .ok) :
    FailsWith c sd s (complete c (setSentinel sd s)) where
  sentinel := sentinelIn_setSentinel s sd c
  frame := slotFrame_setSentinel s sd c
  status := by rw [complete_status, setSentinel_status, completed_not_ok _ hc]

theorem value_isMatOf_of_square (hsq : rows s sa = cols s sa) : ∃ f, value s sa = matOf (rows s sa) (rows s sa) f :=
  ⟨elem s sa, by rw [value, ← hsq]⟩

theorem toMatrix_matOf_entry (n : Nat) (X : Mat) : toMatrix n n (matOf n n (entry X)) = toMatrix n n X := by
  ext i j
  rw [toMatrix, entry_matOf n n _ i.isLt j.isLt, toMatrix]

/-- What the inverter finds is the inverse, and the source had one (R162). -/
theorem invert_some_eq_inv {n : Nat} {lp : Bool} {A X : Mat} (hA : ∃ f, A = matOf n n f) (h : invert lp n A = some X) :
    (toMatrix n n A).det ≠ 0 ∧ toMatrix n n X = (toMatrix n n A)⁻¹ := by
  have := prime_29
  have hXA := invert_some hA h
  exact ⟨(Matrix.isUnit_det_of_left_inverse hXA).ne_zero, (Matrix.inv_eq_left_inv hXA).symm⟩

/-- The write-back of an inverse that the inverter has found (R158). -/
theorem invertsInto_writeResult (hi : Inv s) (hsq : rows s sa = cols s sa) {X : Mat}
    (hX : invert s.lpivot (rows s sa) (value s sa) = some X) :
    InvertsInto sd sa s (complete .ok (writeResult sd (rows s sa) (rows s sa) X s)) := by
  obtain ⟨hdet, hinv⟩ := invert_some_eq_inv (value_isMatOf_of_square hsq) hX
  have hle := rows_le s hi sa
  have hrow := rows_lt_256 s sa
  exact {
    det_ne_zero := hdet
    rows_eq := rows_writeResult s sd X hrow
    cols_eq := cols_writeResult s sd X hrow
    value_eq := by
      rw [squareValue, value_complete, value_writeResult s hi.1 sd X (by omega) (by omega), toMatrix_matOf_entry]
      exact hinv
    padding := fun i j hin hjc hout => by
      rw [elemByte_complete, elemByte_writeResult s hi.1 sd _ _ X hin hjc, if_neg hout]
      rfl
    frame := slotFrame_writeResult s sd _ _ X .ok
    status := by rw [complete_status, writeResult_status, completed_ok] }

/-- A source that is the sentinel or not square (R151). -/
theorem exec_matinv_of_not_square (sd : SlotNo) (h : rows s sa = 0 ∨ rows s sa ≠ cols s sa) :
    exec (.matinv sd sa) s = .next (complete .dim (setSentinel sd s)) := by
  rw [exec, execMatinv, if_pos h]

/-- A square source that the inverter inverts (R158). -/
theorem exec_matinv_of_invert_some (sd : SlotNo) (h0 : rows s sa ≠ 0) (hsq : rows s sa = cols s sa) {X : Mat}
    (hX : invert s.lpivot (rows s sa) (value s sa) = some X) :
    exec (.matinv sd sa) s = .next (complete .ok (writeResult sd (rows s sa) (rows s sa) X s)) := by
  rw [exec, execMatinv, if_neg (not_or.mpr ⟨h0, not_not.mpr hsq⟩), hX]

/-- A square source that the inverter does not invert (R159). -/
theorem exec_matinv_of_invert_none (sd : SlotNo) (h0 : rows s sa ≠ 0) (hsq : rows s sa = cols s sa)
    (hX : invert s.lpivot (rows s sa) (value s sa) = none) :
    exec (.matinv sd sa) s = .next (complete .singular (setSentinel sd s)) := by
  rw [exec, execMatinv, if_neg (not_or.mpr ⟨h0, not_not.mpr hsq⟩), hX]

/-- The two ends of MATINV on a square source, by what the inverter answers (R151, R158, R159). -/
theorem exec_matinv_of_square (sd : SlotNo) (hi : Inv s) (h0 : rows s sa ≠ 0) (hsq : rows s sa = cols s sa) :
    ∃ t, exec (.matinv sd sa) s = .next t ∧
      ((invert s.lpivot (rows s sa) (value s sa) = none ∧ FailsWith .singular sd s t) ∨
        (invert s.lpivot (rows s sa) (value s sa) ≠ none ∧ InvertsInto sd sa s t)) := by
  cases hX : invert s.lpivot (rows s sa) (value s sa) with
  | none =>
    exact ⟨_, exec_matinv_of_invert_none sd h0 hsq hX, .inl ⟨rfl, failsWith_setSentinel s sd (by decide)⟩⟩
  | some X =>
    exact ⟨_, exec_matinv_of_invert_some sd h0 hsq hX, .inr ⟨by simp, invertsInto_writeResult hi hsq hX⟩⟩

/-- Every failure of MATINV is DIM or SINGULAR; a success comes from an inverse that the inverter has found (R151–R159). -/
theorem exec_matinv_ends (h : exec (.matinv sd sa) s = .next t) :
    (∃ c, (c = .dim ∨ c = .singular) ∧ FailsWith c sd s t) ∨
      (rows s sa ≠ 0 ∧ rows s sa = cols s sa ∧ ∃ X, invert s.lpivot (rows s sa) (value s sa) = some X ∧
        t = complete .ok (writeResult sd (rows s sa) (rows s sa) X s)) := by
  rcases execMatinv_cases sd sa s with ⟨-, e⟩ | ⟨h0, hsq, ⟨-, e⟩ | ⟨X, hX, e⟩⟩ <;> obtain rfl := next_inj (e.symm.trans h)
  · exact .inl ⟨.dim, .inl rfl, failsWith_setSentinel s sd (by decide)⟩
  · exact .inl ⟨.singular, .inr rfl, failsWith_setSentinel s sd (by decide)⟩
  · exact .inr ⟨h0, hsq, X, hX, rfl⟩

/-- When MATINV ends with OK, the inverter has found an inverse and it has been written back (R158). -/
theorem invert_some_of_exec_matinv_ok (h : exec (.matinv sd sa) s = .next t) (hok : t.status.ecode = .ok) :
    rows s sa ≠ 0 ∧ rows s sa = cols s sa ∧ ∃ X, invert s.lpivot (rows s sa) (value s sa) = some X ∧
      t = complete .ok (writeResult sd (rows s sa) (rows s sa) X s) := by
  rcases exec_matinv_ends h with ⟨c, hc, hfail⟩ | hsucc
  · rw [hfail.ecode] at hok
    rcases hc with rfl | rfl <;> cases hok
  · exact hsucc

/-- A write-back does not read LPIVOT (R47). -/
theorem writeResult_with_lpivot (sl : SlotNo) (m k : Nat) (X : Mat) (lp : Bool) (s : State) :
    writeResult sl m k X { s with lpivot := lp } = { writeResult sl m k X s with lpivot := lp } := by
  have hmem : (writeResult sl m k X { s with lpivot := lp }).mem = (writeResult sl m k X s).mem :=
    setElems_mem_congr (s := setDim sl _ { s with lpivot := lp }) (t := setDim sl _ s) rfl rfl sl _
  ext1 <;> simp [hmem]

/-- The leading 1×1 minor of a source under the invariant is its corner element (R42). -/
theorem corner_minor_eq_zero_iff (hi : Inv s) (hr : 0 < rows s sa) (hc : 0 < cols s sa) :
    (squareValue s sa 1).det = 0 ↔ elemByte s sa 0 0 = 0 := by
  have hentry : squareValue s sa 1 0 0 = ((elem s sa 0 0).val : ZMod 29) := by
    rw [← entry_value s sa hr hc]
    rfl
  rw [Matrix.det_fin_one, hentry, cast_residue_eq_zero, Fin.ext_iff, elem_val s hi, ← BitVec.toNat_inj]
  rfl

end

/-! ### The statements -/

/-- Settles O19: the inverter's result is the inverse, and an invertible matrix times its inverse is 1 on both sides. -/
theorem matinvOkGivesTheInverse : Obligations.MatinvOkGivesTheInverse := by
  intro s t sd sa hi h hok
  have := prime_29
  obtain ⟨-, hsq, X, hX, rfl⟩ := invert_some_of_exec_matinv_ok h hok
  have hend := invertsInto_writeResult (sd := sd) hi hsq hX
  have hunit : IsUnit (squareValue s sa (rows s sa)).det := isUnit_iff_ne_zero.mpr hend.det_ne_zero
  refine ⟨hend.rows_eq, hend.cols_eq, ?_, ?_, hend.padding, hend.frame, hend.status⟩
  · rw [hend.value_eq, Matrix.mul_nonsing_inv _ hunit]
  · rw [hend.value_eq, Matrix.nonsing_inv_mul _ hunit]

/-- Settles O20: with row swapping the inverter fails only on determinant 0, and it succeeds only on another. -/
theorem matinvWithSwappingDecidesInvertibility : Obligations.MatinvWithSwappingDecidesInvertibility := by
  intro s sd sa hi hlp h0 hsq
  obtain ⟨t, hexec, ⟨hnone, hend⟩ | ⟨-, hend⟩⟩ := exec_matinv_of_square sd hi h0 hsq
  · rw [hlp] at hnone
    have hdet : (squareValue s sa (rows s sa)).det = 0 := invert_none (value_isMatOf_of_square hsq) hnone
    exact ⟨t, hexec, hend.frame, fun _ => ⟨hend.sentinel, hend.status⟩, fun hne => absurd hdet hne⟩
  · exact ⟨t, hexec, hend.frame, fun hdet => absurd hdet hend.det_ne_zero,
      fun _ => ⟨hend.rows_eq, hend.cols_eq, hend.value_eq, hend.padding, hend.status⟩⟩

/-- Settles O47: without row swapping the inverter fails exactly when a leading minor, the working pivot of its column up to the
row operations before it, is 0. -/
theorem matinvWithoutSwappingNeedsLeadingMinors : Obligations.MatinvWithoutSwappingNeedsLeadingMinors := by
  intro s sd sa hi hlp h0 hsq
  have hminors : invert s.lpivot (rows s sa) (value s sa) = none ↔
      ∃ k, 1 ≤ k ∧ k ≤ rows s sa ∧ (squareValue s sa k).det = 0 := by
    rw [hlp]
    exact invert_false_none_iff (value_isMatOf_of_square hsq)
  obtain ⟨t, hexec, ⟨hnone, hend⟩ | ⟨hsome, hend⟩⟩ := exec_matinv_of_square sd hi h0 hsq
  · obtain ⟨k, h1, hk, hdet⟩ := hminors.mp hnone
    exact ⟨t, hexec, hend.frame, fun hall => absurd hdet (hall k h1 hk), fun _ => ⟨hend.sentinel, hend.status⟩⟩
  · exact ⟨t, hexec, hend.frame, fun _ => ⟨hend.rows_eq, hend.cols_eq, hend.value_eq, hend.padding, hend.status⟩,
      fun hzero => absurd (hminors.mpr hzero) hsome⟩

/-- Settles O21: a success would make the determinant nonzero, in either mode. -/
theorem matinvReportsEverySingularMatrix : Obligations.MatinvReportsEverySingularMatrix := by
  intro s sd sa hi h0 hsq hdet
  obtain ⟨t, hexec, ⟨-, hend⟩ | ⟨-, hend⟩⟩ := exec_matinv_of_square sd hi h0 hsq
  · exact ⟨t, hexec, hend.sentinel, hend.frame, hend.status⟩
  · exact absurd hdet hend.det_ne_zero

/-- Settles O22: the inverter's two policies agree where the one without swapping succeeds, and nothing else reads LPIVOT. -/
theorem matinvPoliciesAgreeOnSuccess : Obligations.MatinvPoliciesAgreeOnSuccess := by
  intro s t sd sa hlp h hok
  obtain ⟨h0, hsq, X, hX, rfl⟩ := invert_some_of_exec_matinv_ok h hok
  rw [hlp] at hX
  rw [exec_matinv_of_invert_some (s := { s with lpivot := true }) sd h0 hsq (invert_policy hX), writeResult_with_lpivot]
  rfl

/-- Settles O23 from O47: of the two leading minors of a 2×2 source one is the corner and the other is not 0. -/
theorem matinvWithoutSwappingFailsOnZeroCorner : Obligations.MatinvWithoutSwappingFailsOnZeroCorner := by
  intro s sd sa hi hlp hr hc hdet
  obtain ⟨t, hexec, -, hok, hsing⟩ :=
    matinvWithoutSwappingNeedsLeadingMinors s sd sa hi hlp (by omega) (by omega)
  have hcorner := corner_minor_eq_zero_iff (sa := sa) hi (by omega) (by omega)
  refine ⟨t, hexec, ?_⟩
  by_cases h : elemByte s sa 0 0 = 0
  · obtain ⟨-, hst⟩ := hsing ⟨1, le_rfl, by omega, hcorner.mpr h⟩
    exact ⟨iff_of_true (by rw [hst]) h, iff_of_false (by simp [hst]) (not_not.mpr h)⟩
  · have hminors : ∀ k, 1 ≤ k → k ≤ rows s sa → (squareValue s sa k).det ≠ 0 := fun k h1 hk => by
      obtain rfl | rfl : k = 1 ∨ k = 2 := by omega
      · exact fun e => h (hcorner.mp e)
      · exact hdet
    obtain ⟨-, -, -, -, hst⟩ := hok hminors
    exact ⟨iff_of_false (by simp [hst]) h, iff_of_true (by rw [hst]) h⟩

/-- Settles O17: DIM for every other source, and the two ends of a square one. -/
theorem matinvChecksItsOperand : Obligations.MatinvChecksItsOperand := by
  refine fun s sd sa => ⟨fun h => ?_, fun hi h0 hsq => ?_⟩
  · have hend := failsWith_setSentinel s sd (c := .dim) (by decide)
    exact ⟨_, exec_matinv_of_not_square sd h, hend.sentinel, hend.frame, hend.status⟩
  · have hle := rows_le s hi sa
    refine ⟨by omega, by omega, ?_⟩
    obtain ⟨t, hexec, ⟨-, hend⟩ | ⟨-, hend⟩⟩ := exec_matinv_of_square sd hi h0 hsq
    · exact ⟨t, hexec, .inr hend.ecode⟩
    · exact ⟨t, hexec, .inl hend.ecode⟩

/-- Settles O18: of the ends of MATINV only the failures have a code other than OK. -/
theorem matinvFailureLeavesTheSentinel : Obligations.MatinvFailureLeavesTheSentinel := by
  intro s t sd sa h hne
  rcases exec_matinv_ends h with ⟨c, hc, hend⟩ | ⟨-, -, X, -, rfl⟩
  · obtain rfl := hend.ecode
    exact ⟨hc, hend.sentinel, hend.frame, hend.status⟩
  · exact absurd rfl hne

end Sys2Proof.Machine
end

section
/-! SUPPORT. MATMUL as a command (42_matrix_multiply.md R171–R174): what each of its two ends leaves. Then MATMUL and MATINV as
operations on the matrices over Z/29Z that slots hold, from which the round trip of R176 is assembled. -/

namespace Sys2Proof.Machine

section
variable {s t : State} {sd sa sb : SlotNo}

/-! ### The two ends of MATMUL -/

/-- The exact sum of R172 over the stored bytes, before its reduction mod 29. -/
def byteDot (s : State) (sa sb : SlotNo) (i j : Nat) : ℕ :=
  ∑ x ∈ Finset.range (cols s sa), (elemByte s sa i x).toNat * (elemByte s sb x j).toNat

/-- The end of MATMUL with OK (R173), element by element and as a matrix. -/
structure MultipliesInto (sd sa sb : SlotNo) (s t : State) : Prop where
  rows_eq : rows t sd = rows s sa
  cols_eq : cols t sd = cols s sb
  elemByte_eq : ∀ i j, i < s.params.nmax → j < s.params.cmax →
    (elemByte t sd i j).toNat = if i < rows s sa ∧ j < cols s sb then byteDot s sa sb i j % 29 else 0
  value_eq : value t sd = product (rows s sa) (cols s sa) (cols s sb) (value s sa) (value s sb)
  frame : slotFrame sd s t
  status : t.status = { s.status with busy := false, done := true, ecode := .ok }

theorem MultipliesInto.ecode (h : MultipliesInto sd sa sb s t) : t.status.ecode = .ok := by rw [h.status]

/-- A factor that is the sentinel, or inner sizes that differ (R171). -/
theorem exec_matmul_of_misfit (sd : SlotNo) (h : rows s sa = 0 ∨ rows s sb = 0 ∨ cols s sa ≠ rows s sb) :
    exec (.matmul sd sa sb) s = .next (complete .dim (setSentinel sd s)) := by
  rw [exec, execMatmul, if_pos h]

/-- Two factors that fit (R173). -/
theorem exec_matmul_of_fit (sd : SlotNo) (ha : rows s sa ≠ 0) (hb : rows s sb ≠ 0) (hab : cols s sa = rows s sb) :
    exec (.matmul sd sa sb) s = .next (complete .ok (writeResult sd (rows s sa) (cols s sb)
      (product (rows s sa) (cols s sa) (cols s sb) (value s sa) (value s sb)) s)) := by
  rw [exec, execMatmul, if_neg (not_or.mpr ⟨ha, not_or.mpr ⟨hb, not_not.mpr hab⟩⟩)]

/-- A residue of the product is the sum over the stored bytes, mod 29 (R172). -/
theorem entry_product_value (hi : Inv s) (hab : cols s sa = rows s sb) {i j : Nat} (him : i < rows s sa)
    (hjk : j < cols s sb) :
    (entry (product (rows s sa) (cols s sa) (cols s sb) (value s sa) (value s sb)) i j).val =
      byteDot s sa sb i j % 29 := by
  rw [entry_product _ _ _ _ _ him hjk, byteDot]
  congr 1
  refine Finset.sum_congr rfl fun x hx => ?_
  have hxp : x < cols s sa := Finset.mem_range.mp hx
  rw [entry_value s sa him hxp, entry_value s sb (hab ▸ hxp) hjk, elem_val s hi, elem_val s hi]

/-- Each sum of R172 is at most 784 per inner index: a stored byte is at most 28. -/
theorem byteDot_le (hi : Inv s) (sa sb : SlotNo) (i j : Nat) : byteDot s sa sb i j ≤ cols s sa * 784 := by
  have hterm : ∀ x ∈ Finset.range (cols s sa), (elemByte s sa i x).toNat * (elemByte s sb x j).toNat ≤ 784 := fun x _ =>
    Nat.mul_le_mul (Nat.le_of_lt_succ (elemByte_lt s hi sa i x)) (Nat.le_of_lt_succ (elemByte_lt s hi sb x j))
  simpa [byteDot] using Finset.sum_le_card_nsmul _ _ _ hterm

/-- The write-back of a product (R173). -/
theorem multipliesInto_writeResult (hi : Inv s) (sd : SlotNo) (hab : cols s sa = rows s sb) :
    MultipliesInto sd sa sb s (complete .ok (writeResult sd (rows s sa) (cols s sb)
      (product (rows s sa) (cols s sa) (cols s sb) (value s sa) (value s sb)) s)) where
  rows_eq := rows_writeResult s sd _ (rows_lt_256 s sa)
  cols_eq := cols_writeResult s sd _ (cols_lt_256 s sb)
  elemByte_eq := fun i j hin hjc => by
    rw [elemByte_complete, elemByte_writeResult s hi.1 sd _ _ _ hin hjc, residueByte_toNat]
    split
    · next hinside => exact entry_product_value hi hab hinside.1 hinside.2
    · rfl
  value_eq := by
    have ha := rows_le s hi sa
    have hb := rows_le s hi sb
    rw [value_complete, value_writeResult s hi.1 sd _ (by omega) (by omega)]
    exact matOf_congr _ _ _ _ fun i j him hjk => entry_matOf _ _ _ him hjk
  frame := slotFrame_writeResult s sd _ _ _ .ok
  status := by rw [complete_status, writeResult_status, completed_ok]

/-! ### Slots that hold matrices over Z/29Z -/

/-- Slot sl holds the m×k matrix A over Z/29Z (R1, R12). -/
structure HoldsMatrix (s : State) (sl : SlotNo) {m k : Nat} (A : Matrix (Fin m) (Fin k) (ZMod 29)) : Prop where
  rows_eq : rows s sl = m
  cols_eq : cols s sl = k
  value_eq : toMatrix m k (value s sl) = A

/-- Matrices of residues with one shape are equal when their images in Z/29Z are. -/
theorem matOf_eq_of_toMatrix {m k : Nat} {f g : Nat → Nat → Residue}
    (h : toMatrix m k (matOf m k f) = toMatrix m k (matOf m k g)) : matOf m k f = matOf m k g := by
  refine matOf_congr m k f g fun i j hi hj => ?_
  have hij := congrFun (congrFun h ⟨i, hi⟩) ⟨j, hj⟩
  rwa [toMatrix, toMatrix, cast_residue_inj, entry_matOf m k f hi hj, entry_matOf m k g hi hj] at hij

/-- What a slot holds over Z/29Z determines its value. -/
theorem HoldsMatrix.value_unique {sl sl' : SlotNo} {m k : Nat} {A : Matrix (Fin m) (Fin k) (ZMod 29)}
    (h : HoldsMatrix s sl A) (h' : HoldsMatrix t sl' A) : value s sl = value t sl' := by
  obtain ⟨hr, hc, hv⟩ := h
  obtain ⟨hr', hc', hv'⟩ := h'
  rw [← hv'] at hv
  rw [value, value, hr, hc, hr', hc'] at hv ⊢
  exact matOf_eq_of_toMatrix hv

/-- The shape and the value of every slot outside a frame are what they were (R193). -/
theorem slotFrame.shape_value_eq {sl : SlotNo} (hf : slotFrame sd s t) (hi : Inv s) (hne : sl ≠ sd) :
    rows t sl = rows s sl ∧ cols t sl = cols s sl ∧ value t sl = value s sl := by
  obtain ⟨hparams, -, -, -, -, -, -, -, -, -, hdim, hmem⟩ := hf
  have hr : rows t sl = rows s sl := by rw [rows, hdim sl hne, rows]
  have hc : cols t sl = cols s sl := by rw [cols, hdim sl hne, cols]
  refine ⟨hr, hc, ?_⟩
  rw [value, value, hr, hc]
  refine matOf_congr _ _ _ _ fun i j him hjk => ?_
  have hle := rows_le s hi sl
  have hin : i < s.params.nmax := by omega
  have hjc : j < s.params.cmax := by omega
  rw [elem, elem, elemByte, elemByte, hparams,
    hmem _ fun i' j' hi' hj' e => hne (elemAddr_inj hi.1 hin hjc hi' hj' e).1]

theorem HoldsMatrix.of_slotFrame {sl : SlotNo} {m k : Nat} {A : Matrix (Fin m) (Fin k) (ZMod 29)}
    (h : HoldsMatrix s sl A) (hf : slotFrame sd s t) (hi : Inv s) (hne : sl ≠ sd) : HoldsMatrix t sl A := by
  obtain ⟨hr, hc, hv⟩ := hf.shape_value_eq hi hne
  exact ⟨hr.trans h.rows_eq, hc.trans h.cols_eq, by rw [hv, h.value_eq]⟩

/-- MATMUL on nonempty factors that fit is the matrix product (R172, R173). -/
theorem exec_matmul_holdsMatrix {m p k : Nat} {A : Matrix (Fin m) (Fin p) (ZMod 29)} {B : Matrix (Fin p) (Fin k) (ZMod 29)}
    (hi : Inv s) (hA : HoldsMatrix s sa A) (hB : HoldsMatrix s sb B) (hm : m ≠ 0) (hp : p ≠ 0)
    (h : exec (.matmul sd sa sb) s = .next t) :
    t.status.ecode = .ok ∧ slotFrame sd s t ∧ HoldsMatrix t sd (A * B) := by
  obtain ⟨rfl, rfl, rfl⟩ := hA
  obtain ⟨hab, rfl, rfl⟩ := hB
  obtain rfl := next_inj ((exec_matmul_of_fit sd hm (hab ▸ hp) hab.symm).symm.trans h)
  have hend := multipliesInto_writeResult hi sd hab.symm
  exact ⟨hend.ecode, hend.frame, hend.rows_eq, hend.cols_eq, by rw [hend.value_eq, toMatrix_product]⟩

/-- MATINV that ends with OK leaves a left inverse (R162). -/
theorem exec_matinv_holdsMatrix {n : Nat} {A : Matrix (Fin n) (Fin n) (ZMod 29)} (hi : Inv s) (hA : HoldsMatrix s sa A)
    (h : exec (.matinv sd sa) s = .next t) (hok : t.status.ecode = .ok) :
    slotFrame sd s t ∧ ∃ D : Matrix (Fin n) (Fin n) (ZMod 29), HoldsMatrix t sd D ∧ D * A = 1 := by
  obtain ⟨rfl, -, rfl⟩ := hA
  obtain ⟨hr, hc, -, hDA, -, hframe, -⟩ := matinvOkGivesTheInverse s t sd sa hi h hok
  exact ⟨hframe, squareValue t sd (rows s sa), ⟨hr, hc, rfl⟩, hDA⟩

end

/-! ### The statements -/

/-- Settles O16: the two ends of MATMUL, and the sizes of the factors from the legal shapes. -/
theorem matmulMultipliesSlots : Obligations.MatmulMultipliesSlots := by
  refine fun s sd sa sb hi => ⟨fun hmisfit => ?_, fun ha0 hb0 hab => ?_⟩
  · have hend := failsWith_setSentinel s sd (c := .dim) (by decide)
    exact ⟨_, exec_matmul_of_misfit sd hmisfit, hend.sentinel, hend.frame, hend.status⟩
  · have ha := rows_le s hi sa
    have hb := rows_le s hi sb
    have hp : cols s sa ≤ s.params.nmax := by omega
    have hend := multipliesInto_writeResult hi sd hab
    exact ⟨by omega, hp, by omega, _, exec_matmul_of_fit sd ha0 hb0 hab, hend.frame, hend.rows_eq, hend.cols_eq,
      hend.elemByte_eq, fun i j _ _ => (byteDot_le hi sa sb i j).trans (Nat.mul_le_mul_right 784 hp), hend.status⟩

/-- Settles O24: C holds E·P, D a left inverse of E, and the last destination D·(E·P) = P; C's slot keeps its value while D is
written. -/
theorem decryptingAnEncryptedBlockRestoresIt : Obligations.DecryptingAnEncryptedBlockRestoresIt := by
  intro s t u w sE sP sC sD sR hi h0 hsq hP hCE hDC hst htu hok huw
  have hE₀ : HoldsMatrix s sE (squareValue s sE (rows s sE)) := ⟨rfl, hsq, rfl⟩
  have hP₀ : HoldsMatrix s sP (toMatrix (rows s sE) (cols s sP) (value s sP)) := ⟨hP, rfl, rfl⟩
  have hit : Inv t := exec_keeps_inv hi hst
  have hiu : Inv u := exec_keeps_inv hit htu
  obtain ⟨-, hframe_st, hC⟩ := exec_matmul_holdsMatrix hi hE₀ hP₀ h0 h0 hst
  obtain ⟨hframe_tu, D, hD, hDE⟩ := exec_matinv_holdsMatrix hit (hE₀.of_slotFrame hframe_st hi hCE.symm) htu hok
  obtain ⟨hokw, -, hR⟩ := exec_matmul_holdsMatrix hiu hD (hC.of_slotFrame hframe_tu hit hDC.symm) h0 h0 huw
  rw [← Matrix.mul_assoc, hDE, Matrix.one_mul] at hR
  exact ⟨hokw, hR.rows_eq.trans hP.symm, hR.cols_eq, hR.value_unique hP₀⟩

end Sys2Proof.Machine
end

section
/-! SUPPORT. A command from its acceptance to its completion (60_exceptions.md R190, R191, R199, R203): the CMD write, the accesses
that are blocked meanwhile, and the Engine's turn. -/

namespace Sys2Proof.Machine

/-- A legal word's turn: the command that the word decodes to (R191). -/
theorem engineTurn_legal {s : State} {i : Instr} (hb : s.status.busy = true) (hd : decode s.cmd = .ok i) :
    engineTurn s = exec i s := by
  simp only [engineTurn, completion, hb, hd, if_true]

/-- The turn of an idle block changes nothing (R203). -/
theorem engineTurn_idle {s : State} (hb : s.status.busy = false) : engineTurn s = .next s := by
  simp [engineTurn, hb]

/-- The Engine's turn comes from the schedule, or follows its end (R229). -/
theorem step_of_nextIsEngine {s : State} (h : nextIsEngine s = true) :
    step s = engineTurn { s with inbox := s.inbox.tail } := by
  unfold nextIsEngine at h
  split at h
  case h_1 rest hin => rw [step, hin, List.tail_cons]
  case h_2 hin =>
    have hs : { s with inbox := s.inbox.tail } = s := by rw [hin, List.tail_nil, ← hin]
    rw [hs, step, hin]
  all_goals cases h

/-- Settles O14: the Engine's turn with BUSY = 1 and a legal word, with BUSY = 1 and an illegal word, and with BUSY = 0. -/
theorem engineStepRunsThePendingCommand : Obligations.EngineStepRunsThePendingCommand := by
  intro s he
  rw [step_of_nextIsEngine he]
  refine ⟨fun hb i hd => engineTurn_legal hb hd, fun hb e hd => ?_, fun hb => engineTurn_idle hb⟩
  rw [engineTurn_illegal (s := { s with inbox := s.inbox.tail }) hb hd, complete, completed_not_ok _ (by decide)]

/-- Settles O15 with the frame that all commands share. -/
theorem everyCommandEndsInOneCompletion : Obligations.EveryCommandEndsInOneCompletion := by
  intro i s
  obtain ⟨t, ht⟩ := exec_answers i s
  obtain ⟨hpar, hctrl, hcmd, hopa, hopb, hlp, hbox, hreads, hpolls, c, hst⟩ := exec_frame ht
  exact ⟨t, c, ht, hst, hpar, hctrl, hcmd, hopa, hopb, hlp, hbox, hreads, hpolls⟩

/-- A CMD write of an idle block is an acceptance, whatever the word is (R190). -/
theorem hostWrite_cmd_idle {s : State} (v : Word) (hb : s.status.busy = false) :
    hostWrite 0x00C v s = .next (accept v s) :=
  hostWrite_of_target v rfl (target_cmd _) (.inr hb)

/-- Settles O34: the acceptance, and the blocked write. -/
theorem cmdWriteAcceptsWhenIdle : Obligations.CmdWriteAcceptsWhenIdle := fun _ v =>
  ⟨hostWrite_cmd_idle v, hostWrite_of_target_blocked v rfl (target_cmd _) rfl⟩

/-- The entry point is an acceptance with the Engine's turn next (log entry 4): its step is the turn of the accepted state. -/
theorem step_withFetchWord (s : State) (v : Word) : step (s.withFetchWord 32 v.toNat) = engineTurn (accept v s) := by
  have hv : BitVec.ofNat 32 (v.toNat % 2 ^ 32) = v := by rw [Nat.mod_eq_of_lt v.isLt, BitVec.ofNat_toNat, BitVec.setWidth_eq]
  rw [State.withFetchWord, hv]
  rfl

/-- Settles O35: both the Engine's step and the entry point are the turn of the accepted state. -/
theorem acceptedCommandRunsOnItsOperands : Obligations.AcceptedCommandRunsOnItsOperands := by
  intro s v i hb hd
  exact ⟨accept v s, hostWrite_cmd_idle v hb, engineTurn_legal (s := accept v s) rfl hd, step_withFetchWord s v⟩

/-- Settles O37: each named target is one whose read, or whose write, BUSY = 1 blocks. -/
theorem blockedAccessesOnlySetBusyacc : Obligations.BlockedAccessesOnlySetBusyacc := by
  refine fun s off v hb ha => ⟨fun ht => hostRead_blocked ha ?_ hb, fun ht => hostWrite_blocked ha ?_ hb⟩
  · rcases ht with ht | ⟨sl, ht⟩ | ⟨sl, i, j, ht⟩ <;> rw [ht] <;> rfl
  · rcases ht with ht | ht | ht | ⟨sl, ht⟩ | ⟨sl, i, j, ht⟩ <;> rw [ht] <;> rfl

end Sys2Proof.Machine
end

section
/-! SUPPORT. The level of irq over a step (60_exceptions.md R200): the kind of the step decides it, but for a write of CTRL, which is
a quiet step and sets the enable. -/

namespace Sys2Proof.Machine

/-- The level that a step of a kind leaves, when it is no write of CTRL. -/
def irqAfter (s : State) : StepKind → Bool
  | .completes => s.ctrl.irqEn
  | .accepts _ => false
  | .clears v => irq s && !v.getLsbD 1
  | .blocks => irq s
  | .resets => false
  | .quiet => irq s

section
variable {s t : State} {v : Word}

/-- A write of CTRL is never blocked and does nothing else (R32, R76). -/
theorem step_ctrl_write (h : step s = .next t) (hw : nextIsWrite s 0x004 v) :
    t = { s with inbox := s.inbox.tail, ctrl := ctrlOfWord v } := by
  obtain ⟨rest, hin⟩ := hw
  rw [step, hin] at h
  rw [hin, List.tail_cons]
  exact (next_inj h).symm

theorem stepKind_of_ctrl_write (hw : nextIsWrite s 0x004 v) : stepKind s = .quiet := by
  obtain ⟨rest, hin⟩ := hw
  rw [stepKind_of_other_write hin (by decide) (by decide), nextIsBlocked_of_write hin rfl, target_ctrl]
  simp [Target.writeBlocks]

theorem nextIsWrite_unique {off : Offset} {w : Word} (hv : nextIsWrite s off v) (hw : nextIsWrite s off w) : w = v := by
  obtain ⟨rest, hin⟩ := hv
  obtain ⟨rest', hin'⟩ := hw
  rw [hin] at hin'
  cases hin'
  rfl

theorem exists_nextIsWrite_and {off : Offset} (hv : nextIsWrite s off v) (p : Word → Prop) :
    (∃ w, nextIsWrite s off w ∧ p w) ↔ p v :=
  ⟨fun ⟨_, hw, hp⟩ => nextIsWrite_unique hv hw ▸ hp, fun hp => ⟨v, hv, hp⟩⟩

/-- CTRL changes by a write of it or at a reset (R32, R220). -/
theorem step_ctrl (h : step s = .next t) :
    (∃ v, nextIsWrite s 0x004 v) ∨ nextIsReset s = true ∨ t.ctrl = s.ctrl := by
  rcases step_cases h with ⟨-, -, rfl⟩ | ⟨-, -, ⟨i, -, hx⟩ | ⟨e, -, rfl⟩⟩ | ⟨off, rest, hin, -, rfl⟩ |
    ⟨off, v, rest, hin, -, rfl⟩ | ⟨rest, hin, rfl⟩ | ⟨rest, hin, rfl⟩
  · exact .inr (.inr rfl)
  · obtain ⟨-, hctrl, -⟩ := exec_frame hx
    exact .inr (.inr hctrl)
  · exact .inr (.inr rfl)
  · rcases memRead_cases off { s with inbox := rest } with ⟨-, -, e⟩ | ⟨-, e⟩ <;> exact .inr (.inr (by simp [e]))
  · rcases memWrite_effects off v { s with inbox := rest } with ⟨-, -, e⟩ | ⟨-, -, e⟩ | ⟨-, e⟩ | ⟨rfl, -⟩ |
      ⟨-, -, -, -, -, a, b, d, m, e⟩
    case inr.inr.inr.inl => exact .inl ⟨v, rest, hin⟩
    all_goals exact .inr (.inr (by simp [e]))
  · rcases waitPoll_cases { s with inbox := rest } with ⟨-, e⟩ | ⟨-, e⟩ <;> exact .inr (.inr (by simp [e]))
  · exact .inr (.inl (by simp [nextIsReset, hin]))

theorem irq_of_ctrl_write (h : step s = .next t) (hw : nextIsWrite s 0x004 v) :
    irq t = (v.getLsbD 1 && s.status.done) := by
  rw [step_ctrl_write h hw]
  rfl

theorem irq_of_stepKind (h : step s = .next t) (hw : ¬∃ v, nextIsWrite s 0x004 v) :
    irq t = irqAfter s (stepKind s) := by
  have hctrl := (step_ctrl h).resolve_left hw
  rw [← stepKind_resets_iff] at hctrl
  have he := step_effect h
  generalize stepKind s = k at he hctrl
  cases k with
  | completes =>
    obtain ⟨-, -, c, hst, -⟩ := he.of_completes
    simp_all [irq, irqAfter]
  | accepts v => cases he; simp [irq, irqAfter]
  | clears v => cases he; simp [irq, irqAfter, Bool.and_assoc]
  | blocks => cases he; simp [irq, irqAfter]
  | resets => cases he; simp [irq, irqAfter, State.reset]
  | quiet => cases he <;> simp_all [irq, irqAfter]

end

/-- Settles O38: a write of CTRL sets the level to its enable bit under DONE; any other step by its kind. -/
theorem irqIsTheEnabledDoneLevel : Obligations.IrqIsTheEnabledDoneLevel := by
  intro s t h
  rw [acceptance_iff_stepKind, statusClear_iff_stepKind, ← stepKind_resets_iff]
  by_cases hw : ∃ v, nextIsWrite s 0x004 v
  · obtain ⟨v, hv⟩ := hw
    have hk := stepKind_of_ctrl_write hv
    have hnc : ¬(nextIsEngine s = true ∧ s.status.busy = true) := by simp [← stepKind_completes_iff, hk]
    rw [irq_of_ctrl_write h hv, hk]
    refine ⟨rfl, fun _ h1 => .inr ?_, fun he hb => absurd ⟨he, hb⟩ hnc, fun hd w hw => ?_, fun h1 => ?_⟩
    · rw [Bool.and_eq_true] at h1
      exact ⟨h1.2, v, hv, h1.1⟩
    · rw [nextIsWrite_unique hv hw, hd, Bool.and_true]
    · have hd : s.status.done = true := (Bool.and_eq_true_iff.mp h1).2
      rw [exists_nextIsWrite_and hv (·.getLsbD 1 = false), hd]
      simp
  · have hc := stepKind_completes_iff s
    rw [irq_of_stepKind h hw]
    rw [not_exists] at hw
    simp only [hw]
    generalize stepKind s = k at hc
    cases k with
    | completes =>
      obtain ⟨he, hb⟩ := hc.mp rfl
      simp +contextual [irqAfter, irq, he, hb]
    | accepts | clears | blocks | resets | quiet =>
      have hnc : ¬(nextIsEngine s = true ∧ s.status.busy = true) := fun h' => nomatch hc.mpr h'
      simp_all [irqAfter, irq]

end Sys2Proof.Machine
end

section
/-! SUPPORT. The reset input (70_reset_and_hazards.md R220, R221): its step from every state, and the reset state's shapes and
invariant. -/

namespace Sys2Proof.Machine

/-- Every slot is reset to the sentinel's shape (R220). -/
@[simp] theorem reset_dim_get (sl : SlotNo) : State.reset.dim.get sl = ⟨0, 0⟩ := by
  revert sl
  decide

/-- The reset input acts at once, whether a command is pending or not (R220, R221). -/
theorem step_of_reset {s : State} {rest : List Event} (hin : s.inbox = .reset :: rest) :
    step s = .next (resetBlock { s with inbox := rest }) := by
  rw [step, hin]

/-- Settles O43: the step is resetBlock, whose fields are those of the reset state. -/
theorem resetGivesEveryResetValue : Obligations.ResetGivesEveryResetValue := by
  intro s rest hin
  have hshape : ∀ sl : SlotNo, rows State.reset sl = 0 ∧ cols State.reset sl = 0 := fun sl => by
    simp [rows, cols]
  have hbyte : ∀ a, Memory.read State.reset.mem a = 0 := fun _ => rfl
  have hctrl : State.reset.ctrl.toWord = 0x00000001 := by decide
  have hstatus : State.reset.status.toWord = 0 := by decide
  exact ⟨_, step_of_reset hin, hctrl, hstatus, rfl, rfl, rfl, rfl, hshape, hbyte, rfl, rfl, rfl, rfl, rfl, rfl, rfl⟩

/-- Settles O46: the reference parameters are legal, the storage is empty, every shape is the sentinel's, and no bit of STATUS is
set. -/
theorem resetStateMeetsTheInvariant : Obligations.ResetStateMeetsTheInvariant := by
  have hparams : State.reset.params.Legal := by decide
  have hshapes : shapesLegal State.reset = true := (shapesLegal_iff _).mpr fun sl => by
    rw [reset_dim_get]
    exact sentinel_legal _
  exact ⟨hparams, Memory.wf_reset, rfl, hshapes, by simp [State.reset]⟩

end Sys2Proof.Machine
end

section
/-! SUPPORT. The end of a run (70_reset_and_hazards.md R230): what is left on the schedule then is Engine turns, which find the
block idle, and resets. -/

namespace Sys2Proof.Machine

theorem any_isHost_eq_false_iff (l : List Event) : l.any Event.isHost = false ↔ ∀ a, Event.host a ∉ l := by
  rw [List.any_eq_false]
  constructor
  · exact fun h a ha => h _ ha rfl
  · rintro h (a | _ | _) he
    · exact absurd he (h a)
    · exact Bool.false_ne_true
    · exact Bool.false_ne_true

/-- No Host access is left and no command is pending (R230). -/
theorem runOver_iff (s : State) :
    runOver s = true ↔ (∀ a, Event.host a ∉ s.inbox) ∧ s.status.busy = false := by
  rw [runOver, Bool.and_eq_true, Bool.not_eq_true', Bool.not_eq_true', any_isHost_eq_false_iff]

theorem nextIsEngine_of_runOver {s : State} (ho : runOver s = true) (hr : nextIsReset s = false) :
    nextIsEngine s = true := by
  obtain ⟨hhost, -⟩ := (runOver_iff s).mp ho
  rcases hin : s.inbox with _ | ⟨a | _ | _, rest⟩
  · simp [nextIsEngine, hin]
  · exact absurd (by simp [hin]) (hhost a)
  · simp [nextIsEngine, hin]
  · simp [nextIsReset, hin] at hr

/-- The steps of an over run are turns of an idle Engine (R203, R230). -/
theorem step_of_runOver {s : State} (ho : runOver s = true) (hr : nextIsReset s = false) :
    step s = .next { s with inbox := s.inbox.tail } := by
  obtain ⟨-, hidle⟩ := (runOver_iff s).mp ho
  rw [step_of_nextIsEngine (nextIsEngine_of_runOver ho hr)]
  exact engineTurn_idle hidle

theorem runOver_tail {s : State} (ho : runOver s = true) : runOver { s with inbox := s.inbox.tail } = true := by
  obtain ⟨hhost, hidle⟩ := (runOver_iff s).mp ho
  exact (runOver_iff _).mpr ⟨fun a ha => hhost a (List.mem_of_mem_tail ha), hidle⟩

/-- Only a Host access can fault (R77, R205), so one is still left. -/
theorem runOver_of_fault {s : State} {f : Fault} (h : step s = .fault f) : runOver s = false := by
  have hbad : nextIsBusError s = true := by
    by_contra hne
    obtain ⟨t, ht⟩ := step_answers (Bool.eq_false_iff.mpr hne)
    cases h.symm.trans ht
  obtain ⟨size, off, rest, -, hin⟩ := (nextIsBusError_iff s).mp hbad
  rw [Bool.eq_false_iff, Ne, runOver_iff]
  rintro ⟨hhost, -⟩
  rcases hin with hin | ⟨v, hin⟩
  · exact hhost (.read size off) (by simp [hin])
  · exact hhost (.write size off v) (by simp [hin])

/-- Settles O48: the run's end, its steps, and the faults. -/
theorem anOverRunKeepsItsResult : Obligations.AnOverRunKeepsItsResult := fun s =>
  ⟨runOver_iff s, fun ho hr => ⟨_, step_of_runOver ho hr, rfl, runOver_tail ho, rfl⟩,
    fun ⟨_, hf⟩ => runOver_of_fault hf⟩

end Sys2Proof.Machine
end
